-- ==== Sys2Proof/Word.lean ====
section
/-!
DEFINITION. The machine's only word: the byte (spec/00_scope.md R4 `XLEN` = 8, R6).
Every register and every memory cell holds one; the program counter is the one quantity wider than a byte and is a
plain number (Machine/State.lean).
-/

namespace Sys2Proof

/-- An 8-bit unsigned value (spec/00_scope.md R6); bit 7 is the most significant (R5). -/
abbrev Byte := BitVec 8

end Sys2Proof
end

