-- ==== Sys2Proof/Config.lean ====
section
/-!
DEFINITION. The construction parameters of the core (spec/00_scope.md R4, spec/10_state.md R24): what is fixed for one
machine. The spec leaves `N`, `STACK_LIMIT` and `INCDEC` open as parameters with a default (spec/92_eei_decisions.md D1,
D16, D7), so the model takes them as arguments: they stand in a `Config`, and a state carries the `Config` its core was
constructed with (notes/assumptions/1.md). `SP_REG`, `NREG` and `XLEN` are fixed by the spec, and `SP_INIT` follows from `N`.
-/

namespace Sys2Proof

/-- The open parameters of spec/00_scope.md R4. -/
structure Config where
  /-- `N` (`MEM_SIZE`): the number of bytes of Memory, 256 by default, `1 <= N <= 256` (D1). -/
  memSize : Nat
  /-- `STACK_LIMIT`: a push faults when the stack pointer is at or below this address; 0 by default (D16). -/
  stackLimit : Nat
  /-- `INCDEC`: whether INC and DEC are instructions; true by default (D7). -/
  incDec : Bool
deriving DecidableEq, Repr

/-- The hardware as the spec fixes it: every parameter at its default value (spec/00_scope.md R4). -/
def Config.ls8 : Config := { memSize := 256, stackLimit := 0, incDec := true }

/-- `SP_INIT` = `N - 1`: the stack pointer at reset, and the empty-stack mark (spec/00_scope.md R4, D2). -/
def Config.spInit (c : Config) : Nat := c.memSize - 1

/-- The bounds the spec puts on the parameters: `1 <= N <= 256` (spec/00_scope.md R4, D1). -/
abbrev Config.wf (c : Config) : Prop := 1 ≤ c.memSize ∧ c.memSize ≤ 256

/-- `SP_REG` = 7: the general register that is the stack pointer (spec/00_scope.md R4, D3; spec/10_state.md R14). -/
def spReg : Fin 8 := 7

end Sys2Proof
end

