-- ==== Sys2Proof/Syntax.lean ====
section
/-!
DEFINITION. The instructions: one constructor for each of the fifteen rows of spec/opcode_table.json
(spec/30_encoding.md R50). An operand is the whole operand byte as it stands in memory (R48, R49): a register operand
above 7 is a legal encoding whose execution faults, so it is a term here and not a decoding error.
-/

namespace Sys2Proof

/-- An instruction with its operand bytes: `ra` and `rb` are register-index bytes (spec/30_encoding.md R48), `imm` the
immediate byte of LDI (R49). -/
inductive Instr where
  /-- `HLT` (format Z). -/
  | hlt
  /-- `RET` (format Z). -/
  | ret
  /-- `PUSH rA` (format R). -/
  | push (ra : Byte)
  /-- `POP rA` (format R). -/
  | pop (ra : Byte)
  /-- `PRN rA` (format R). -/
  | prn (ra : Byte)
  /-- `CALL rA` (format R). -/
  | call (ra : Byte)
  /-- `JMP rA` (format R). -/
  | jmp (ra : Byte)
  /-- `JEQ rA` (format R). -/
  | jeq (ra : Byte)
  /-- `JNE rA` (format R). -/
  | jne (ra : Byte)
  /-- `INC rA` (format R). -/
  | inc (ra : Byte)
  /-- `DEC rA` (format R). -/
  | dec (ra : Byte)
  /-- `LDI rA, imm` (format RI). -/
  | ldi (ra imm : Byte)
  /-- `ADD rA, rB` (format RR). -/
  | add (ra rb : Byte)
  /-- `MUL rA, rB` (format RR). -/
  | mul (ra rb : Byte)
  /-- `CMP rA, rB` (format RR). -/
  | cmp (ra rb : Byte)
deriving DecidableEq, Repr

end Sys2Proof
end

