-- ==== Sys2Proof/WellFormed.lean ====
section
/-!
DEFINITION. Well-formed instructions: those a core with given parameters has, with operands that name registers.
An ill-formed instruction is not meaningless. One whose register operand is above 7 decodes and its execution faults with
`InvalidRegister` (spec/10_state.md R13); INC and DEC in a core built without them are the illegal opcodes of
spec/92_eei_decisions.md D7.
-/

namespace Sys2Proof

/-- A register-index byte is in `0..7` (spec/10_state.md R13); it is never masked. -/
def regOperandOk (r : Byte) : Bool := decide (r.toNat < 8)

/-- The register-index operands of an instruction, first operand first (spec/30_encoding.md R47). LDI's immediate is not
one of them. -/
def Instr.registerOperands : Instr → List Byte
  | .hlt => []
  | .ret => []
  | .push ra => [ra]
  | .pop ra => [ra]
  | .prn ra => [ra]
  | .call ra => [ra]
  | .jmp ra => [ra]
  | .jeq ra => [ra]
  | .jne ra => [ra]
  | .inc ra => [ra]
  | .dec ra => [ra]
  | .ldi ra _ => [ra]
  | .add ra rb => [ra, rb]
  | .mul ra rb => [ra, rb]
  | .cmp ra rb => [ra, rb]

/-- Every register-index operand names one of the eight registers. -/
def Instr.registersOk (i : Instr) : Bool := i.registerOperands.all regOperandOk

/-- The instruction is in the opcode table of a core with these parameters: with `INCDEC` false the table has no INC and
no DEC (spec/92_eei_decisions.md D7). -/
def Instr.inTable (c : Config) : Instr → Bool
  | .hlt => true
  | .ret => true
  | .push _ => true
  | .pop _ => true
  | .prn _ => true
  | .call _ => true
  | .jmp _ => true
  | .jeq _ => true
  | .jne _ => true
  | .inc _ => c.incDec
  | .dec _ => c.incDec
  | .ldi _ _ => true
  | .add _ _ => true
  | .mul _ _ => true
  | .cmp _ _ => true

/-- Well-formed for a core with parameters `c`: in its opcode table, every register operand in `0..7`. -/
def Instr.wellFormed (c : Config) (i : Instr) : Bool := i.inTable c && i.registersOk

end Sys2Proof
end

