-- ==== Sys2Proof/Decode.lean ====
section
/-!
DEFINITION. The opcode table, the Decoder and the encoder (spec/30_encoding.md R45 to R55, spec/opcode_table.json).
The Decoder looks at all eight bits of the opcode byte and at nothing else (R51); bits 4 and 5 are read by no rule
(R46, spec/90_conflicts.md C1). The encoder is written from the `encoding` column, apart from the Decoder's table.
-/

namespace Sys2Proof

/-- The fifteen mnemonics of spec/30_encoding.md R50: the operation tag a decoded opcode carries. -/
inductive Mnemonic where
  | hlt | ret | push | pop | prn | call | jmp | jeq | jne | inc | dec | ldi | add | mul | cmp
deriving DecidableEq, Repr

/-- One row of the opcode table, as spec/30_encoding.md R50 lists it. `isAlu` and `setsPc` are attributes of the
instruction, never derived from a bit of the byte (R55). -/
structure OpcodeRow where
  mnemonic : Mnemonic
  byte : Byte
  isAlu : Bool
  setsPc : Bool
deriving DecidableEq, Repr

/-- The opcode table of spec/30_encoding.md R50. The bytes of LDI, PRN and HLT are the source's; the spec supplies the
other twelve (spec/92_eei_decisions.md D5). -/
def opcodeTable : List OpcodeRow :=
  [ ⟨.hlt, 0x01, false, false⟩,
    ⟨.ret, 0x11, false, true⟩,
    ⟨.push, 0x45, false, false⟩,
    ⟨.pop, 0x46, false, false⟩,
    ⟨.prn, 0x47, false, false⟩,
    ⟨.call, 0x50, false, true⟩,
    ⟨.jmp, 0x54, false, true⟩,
    ⟨.jeq, 0x55, false, true⟩,
    ⟨.jne, 0x56, false, true⟩,
    ⟨.inc, 0x65, true, false⟩,
    ⟨.dec, 0x66, true, false⟩,
    ⟨.ldi, 0x82, false, false⟩,
    ⟨.add, 0xA0, true, false⟩,
    ⟨.mul, 0xA2, true, false⟩,
    ⟨.cmp, 0xA7, true, false⟩ ]

/-- Whether a core with these parameters has the row: INC and DEC are rows only when `INCDEC` is true
(spec/92_eei_decisions.md D7). -/
def Mnemonic.inTable (c : Config) : Mnemonic → Bool
  | .inc => c.incDec
  | .dec => c.incDec
  | .hlt | .ret | .push | .pop | .prn | .call | .jmp | .jeq | .jne | .ldi | .add | .mul | .cmp => true

/-- `nops = op[7:6]`: the number of operand bytes that follow (spec/30_encoding.md R45). -/
def operandCount (op : Byte) : Nat := op.toNat / 64

/-- `InstructionShape`: what the Decoder returns for an opcode byte (spec/30_encoding.md R51). -/
structure Shape where
  mnemonic : Mnemonic
  nops : Nat
  isAlu : Bool
  setsPc : Bool
deriving DecidableEq, Repr

/-- Why a sequence of bytes is not an instruction. -/
inductive DecodeError where
  /-- The opcode byte matches no row of the opcode table (spec/30_encoding.md R52). -/
  | illegalOpcode (op : Byte)
  /-- There is no opcode byte. -/
  | missingOpcode
  /-- An operand byte the opcode asks for is not there. -/
  | missingOperand
deriving DecidableEq, Repr

/-- `Decode(op)` of spec/30_encoding.md R51: an exact match of all eight bits against the table, else `IllegalOpcode`. -/
def decodeShape (c : Config) (op : Byte) : Except DecodeError Shape :=
  match opcodeTable.find? (fun r => r.byte == op && r.mnemonic.inTable c) with
  | some r => .ok { mnemonic := r.mnemonic, nops := operandCount op, isAlu := r.isAlu, setsPc := r.setsPc }
  | none => .error (.illegalOpcode op)

/-- The instruction a mnemonic and its operand bytes make (spec/30_encoding.md R47); an operand the format does not have
is ignored. -/
def Mnemonic.instr (m : Mnemonic) (opA opB : Byte) : Instr :=
  match m with
  | .hlt => .hlt
  | .ret => .ret
  | .push => .push opA
  | .pop => .pop opA
  | .prn => .prn opA
  | .call => .call opA
  | .jmp => .jmp opA
  | .jeq => .jeq opA
  | .jne => .jne opA
  | .inc => .inc opA
  | .dec => .dec opA
  | .ldi => .ldi opA opB
  | .add => .add opA opB
  | .mul => .mul opA opB
  | .cmp => .cmp opA opB

/-- Decode the instruction at the front of a byte sequence and give the bytes after it: the opcode byte first, then the
operand bytes it asks for, in ascending address order (spec/20_memory.md R33). An illegal opcode is reported before any
operand byte is looked for (spec/30_encoding.md R52). -/
def decode (c : Config) : List Byte → Except DecodeError (Instr × List Byte)
  | [] => .error .missingOpcode
  | op :: rest =>
    match decodeShape c op with
    | .error e => .error e
    | .ok shape =>
      match shape.nops, rest with
      | 0, rest => .ok (shape.mnemonic.instr 0 0, rest)
      | 1, opA :: rest => .ok (shape.mnemonic.instr opA 0, rest)
      | 2, opA :: opB :: rest => .ok (shape.mnemonic.instr opA opB, rest)
      | _, _ => .error .missingOperand

/-- The mnemonic of an instruction. -/
def Instr.mnemonic : Instr → Mnemonic
  | .hlt => .hlt
  | .ret => .ret
  | .push _ => .push
  | .pop _ => .pop
  | .prn _ => .prn
  | .call _ => .call
  | .jmp _ => .jmp
  | .jeq _ => .jeq
  | .jne _ => .jne
  | .inc _ => .inc
  | .dec _ => .dec
  | .ldi _ _ => .ldi
  | .add _ _ => .add
  | .mul _ _ => .mul
  | .cmp _ _ => .cmp

/-- The bytes of an instruction in ascending address order: the `encoding` column of spec/opcode_table.json. -/
def encode : Instr → List Byte
  | .hlt => [0x01]
  | .ret => [0x11]
  | .push ra => [0x45, ra]
  | .pop ra => [0x46, ra]
  | .prn ra => [0x47, ra]
  | .call ra => [0x50, ra]
  | .jmp ra => [0x54, ra]
  | .jeq ra => [0x55, ra]
  | .jne ra => [0x56, ra]
  | .inc ra => [0x65, ra]
  | .dec ra => [0x66, ra]
  | .ldi ra imm => [0x82, ra, imm]
  | .add ra rb => [0xA0, ra, rb]
  | .mul ra rb => [0xA2, ra, rb]
  | .cmp ra rb => [0xA7, ra, rb]

/-- The three bytes (the longest instruction) of a table word: byte 0 in bits 7:0, byte 1 in bits 15:8, byte 2 in bits
23:16, the bits above `nbits` being 0. -/
def tableWordBytes (nbits w : Nat) : List Byte :=
  let v := w % 2 ^ nbits
  [BitVec.ofNat 8 v, BitVec.ofNat 8 (v / 256), BitVec.ofNat 8 (v / 65536)]

/-- The instruction the Decoder of the default core reads from a word numbered as spec/opcode_table.json numbers it. -/
def decodeTableWord (nbits w : Nat) : Option Instr :=
  match decode Config.ls8 (tableWordBytes nbits w) with
  | .ok (i, _) => some i
  | .error _ => none

end Sys2Proof
end

