-- ==== Sys2Proof/Machine/State.lean ====
section
/-!
DEFINITION. The machine's state: the tuple `(M, x[0..7], pc, FL, st, OUT)` of spec/10_state.md R10, and beside it the
construction parameters of R24 (notes/assumptions/1.md). Nothing else is state (R10, R23, R25). The file also names the
reasons of a fault and gives the reset values (R26).
-/

namespace Sys2Proof.Machine

/-- Memory `M` (spec/10_state.md R22): the cells that hold something else than `Memory.unlisted`, as (address, byte) pairs
with strictly rising addresses, so that equal memories are equal data. -/
abbrev Memory := List Host.Cell

/-- What an address that is not listed reads as: 0x00, the reset value of every cell (spec/10_state.md R26, spec/20_memory.md
R36). -/
def Memory.unlisted : Byte := 0

/-- The six fault reasons (spec/60_exceptions.md R105). -/
inductive FaultReason where
  /-- A memory address `>= N`, on opcode fetch, operand fetch or stack access (R106). -/
  | outOfRange
  /-- A register-index operand above 7 (R107). -/
  | invalidRegister
  /-- The fetched opcode byte is not in the opcode table (R108). -/
  | illegalOpcode
  /-- POP or RET with the stack pointer at or above `SP_INIT` (R109). -/
  | stackUnderflow
  /-- PUSH or CALL with the stack pointer at or below `STACK_LIMIT` (R110). -/
  | stackOverflow
  /-- The ALU given a tag outside its five; no instruction can cause it (R111). -/
  | unsupportedOperation
deriving DecidableEq, Repr

/-- The engine state `st` (spec/10_state.md R20). -/
inductive EngineState where
  /-- After reset; the loader may write Memory. -/
  | ready
  /-- Between two Steps of a run. -/
  | running
  /-- HLT was executed; terminal. -/
  | halted
  /-- A fault was raised; terminal, and it carries the reason. -/
  | faulted (reason : FaultReason)
deriving DecidableEq, Repr

/-- The Register File as spec/40_engine_cycle.md R72 divides the work: what the ALU may read and write. -/
structure RegisterFile where
  /-- `x[0]` to `x[7]`; `x[7]` is also the stack pointer (spec/10_state.md R11, R14). -/
  x : Vector Byte 8
  /-- `FL`, the flags register, `0b00000LGE` (spec/10_state.md R18). -/
  fl : Byte
deriving DecidableEq, Repr

/-- The whole state of the machine (spec/10_state.md R10). -/
structure State where
  /-- The construction parameters (spec/10_state.md R24): no Step and no host operation changes them. -/
  config : Config
  /-- `M`, Memory (R22). -/
  mem : Memory
  /-- The general registers and the flags (R11, R18). -/
  rf : RegisterFile
  /-- `pc`: the address of the opcode byte the next Step executes; a number that never wraps (R16). -/
  pc : Nat
  /-- `st`, the engine state (R20). -/
  st : EngineState
  /-- `OUT`: the values PRN has emitted since reset, oldest first (R21). -/
  out : List Byte
deriving DecidableEq, Repr

/-- Why a step stops without a next state. No rule of the spec leaves a behaviour without an effect: each of the six
reasons of spec/60_exceptions.md R105 ends in the state `Faulted(reason)`, which is a next state, so no meaning raises a
`Fault` and the type has no constructor. Safe: nothing stops. -/
inductive Fault where
deriving DecidableEq, Repr

/-- Why an instruction has no meaning in the model. -/
inductive Refusal where
  /-- Raised by a dispatch arm whose instruction has no meaning yet; no arm is left that raises it. Safe. -/
  | notModelled (mnemonic : String)
deriving DecidableEq, Repr

/-- What executing an instruction, or one step, answers. -/
abbrev Outcome := Host.Outcome State Fault Refusal

/-- A core constructed with parameters `c`, right after its construction, which is its reset: the table of spec/10_state.md
R26 and spec/70_reset_and_hazards.md R125. `x[7]` is `SP_INIT`, every other register is 0 (spec/90_conflicts.md C4). -/
def State.construct (c : Config) : State :=
  { config := c
    mem := []
    rf := { x := (Vector.replicate 8 0).set 7 (BitVec.ofNat 8 c.spInit), fl := 0 }
    pc := 0
    st := .ready
    out := [] }

/-- The machine right after reset: the core of the spec's default parameters. -/
def State.reset : State := State.construct Config.ls8

end Sys2Proof.Machine
end

