-- ==== Sys2Proof/Machine/Ops.lean ====
section
/-!
DEFINITION. The named operations over memory, registers and the engine state (spec/00_scope.md R7), taking a fault
(spec/60_exceptions.md R114) and the reset that alone leaves one (R115), and the program-counter multiplexer
(spec/40_engine_cycle.md R66). Every register and every memory cell is read and written through these.
-/

namespace Sys2Proof.Machine

/-! ### Memory -/

/-- The byte a memory holds at an address. -/
def Memory.byteAt : Memory → Nat → Byte
  | [], _ => Memory.unlisted
  | (k, v) :: m, a => if a = k then v else Memory.byteAt m a

/-- Put a cell before a memory, unless it holds what an unlisted address reads as. -/
def Memory.cons (a : Nat) (b : Byte) (m : Memory) : Memory :=
  if b = Memory.unlisted then m else (a, b) :: m

/-- Make a memory hold `b` at `a`, every other cell as it was, keeping the canonical form. -/
def Memory.setByte : Memory → Nat → Byte → Memory
  | [], a, b => Memory.cons a b []
  | (k, v) :: m, a, b =>
    if a < k then Memory.cons a b ((k, v) :: m)
    else if a = k then Memory.cons a b m
    else (k, v) :: Memory.setByte m a b

/-- The canonical form: strictly rising addresses, and no cell listed that holds what an unlisted address reads as. -/
abbrev Memory.wf (m : Memory) : Prop :=
  m.Pairwise (fun p q => p.1 < q.1) ∧ ∀ p ∈ m, p.2 ≠ Memory.unlisted

/-- Only addresses below `n` are listed. -/
abbrev Memory.below (n : Nat) (m : Memory) : Prop := ∀ p ∈ m, p.1 < n

/-- The byte at an address, without the bound check of an access: what a reader of the state sees. -/
def State.byteAt (s : State) (a : Nat) : Byte := s.mem.byteAt a

/-- Make the byte at an address `b`, without the bound check of an access. -/
def State.setByte (s : State) (a : Nat) (b : Byte) : State := { s with mem := s.mem.setByte a b }

/-- `MemRead(addr, 1)` (spec/20_memory.md R31): `addr` is never reduced. -/
def State.memRead (s : State) (addr : Nat) : Except FaultReason Byte :=
  if s.config.memSize ≤ addr then .error .outOfRange else .ok (s.byteAt addr)

/-- `MemWrite(addr, 1, v)` (spec/20_memory.md R32): stores `v mod 256`. -/
def State.memWrite (s : State) (addr v : Nat) : Except FaultReason State :=
  if s.config.memSize ≤ addr then .error .outOfRange
  else .ok (s.setByte addr (BitVec.ofNat 8 v))

/-! ### Registers -/

/-- `x[i]` (spec/10_state.md R11). -/
def RegisterFile.read (rf : RegisterFile) (i : Fin 8) : Byte := rf.x[i]

/-- `x[i] <- v` (spec/10_state.md R12): stores `v mod 256` for any integer `v`. -/
def RegisterFile.write (rf : RegisterFile) (i : Fin 8) (v : Int) : RegisterFile :=
  { rf with x := rf.x.set i (BitVec.ofInt 8 v) }

/-- `x[i]` of a state. -/
def State.reg (s : State) (i : Fin 8) : Byte := s.rf.read i

/-- `x[i] <- v` in a state. -/
def State.setReg (s : State) (i : Fin 8) (v : Int) : State := { s with rf := s.rf.write i v }

/-- The state with another Register File: what the engine takes back from the ALU. -/
def State.setRf (s : State) (rf : RegisterFile) : State := { s with rf := rf }

/-- `FL` of a state (spec/10_state.md R18). -/
def State.fl (s : State) : Byte := s.rf.fl

/-- `pc <- t` (spec/00_scope.md R7). -/
def State.setPc (s : State) (t : Nat) : State := { s with pc := t }

/-! ### Output -/

/-- `Out(v)` (spec/10_state.md R21): appends `v` to the output stream; the sink always accepts. -/
def State.emit (s : State) (v : Byte) : State := { s with out := s.out ++ [v] }

/-! ### The engine state -/

/-- `Ready` to `Running` on the first `run()` or `tick()`: nothing else changes (spec/40_engine_cycle.md R60). -/
def State.start (s : State) : State := { s with st := .running }

/-- `st <- Halted` (spec/44_data_io_system.md R102). -/
def State.halt (s : State) : State := { s with st := .halted }

/-- Taking a fault: the whole effect is `st <- Faulted(reason)` (spec/40_engine_cycle.md R67, spec/60_exceptions.md R114).
`s` is the state before the Step, so nothing the instruction had done remains. -/
def State.takeFault (reason : FaultReason) (s : State) : State := { s with st := .faulted reason }

/-- Reset as a host action, in every engine state (spec/70_reset_and_hazards.md R125): the only way out of `Halted` and of
`Faulted`, there being no return from a fault (spec/60_exceptions.md R115). The core keeps its construction parameters. -/
def State.hostReset (s : State) : State := State.construct s.config

/-- The code of a fault reason on a status port (spec/60_exceptions.md R105). -/
def FaultReason.code : FaultReason → Nat
  | .outOfRange => 1
  | .invalidRegister => 2
  | .illegalOpcode => 3
  | .stackUnderflow => 4
  | .stackOverflow => 5
  | .unsupportedOperation => 6

/-! ### The end of a Step -/

/-- What `Execute` returns (spec/40_engine_cycle.md R65): the state with the instruction's effects and, if the instruction
sets `pc`, the target; or the reason it raised. -/
abbrev Executed := Except FaultReason (State × Option Byte)

/-- The program-counter multiplexer after `Execute` of an instruction other than HLT (spec/40_engine_cycle.md R66): the
target, zero-extended, if there is one, else `pc + 1 + nops`, not reduced. A raise takes the fault in the state before
the Step (R67). -/
def completeStep (s : State) (nops : Nat) : Executed → Outcome
  | .error reason => .next (s.takeFault reason)
  | .ok (t, some target) => .next (t.setPc target.toNat)
  | .ok (t, none) => .next (t.setPc (s.pc + 1 + nops))

end Sys2Proof.Machine
end

