-- ==== Sys2Proof/Machine/Flags.lean ====
section
/-!
DEFINITION. The flags register (spec/10_state.md R18, R19): its layout `0b00000LGE`, and the one computation that writes
it, the unsigned compare of spec/41_alu.md R80. There is no carry, overflow, zero or sign flag.
-/

namespace Sys2Proof.Machine

/-- `FL` after a compare that found equality: bit 0, `E`. -/
def flagE : Byte := 0x01

/-- `FL` after a compare that found the left side greater: bit 1, `G`. -/
def flagG : Byte := 0x02

/-- `FL` after a compare that found the left side less: bit 2, `L`. -/
def flagL : Byte := 0x04

/-- `FL.E` = `FL[0]`: what JEQ and JNE test. -/
def State.flagEqual (s : State) : Bool := s.fl.getLsbD 0

/-- `FL.G` = `FL[1]`: read by no instruction. -/
def State.flagGreater (s : State) : Bool := s.fl.getLsbD 1

/-- `FL.L` = `FL[2]`: read by no instruction. -/
def State.flagLess (s : State) : Bool := s.fl.getLsbD 2

/-- The whole of `FL` after comparing `u`, the first operand, with `v`, as unsigned numbers (spec/41_alu.md R80). -/
def compareFlags (u v : Byte) : Byte :=
  if u.toNat = v.toNat then flagE else if u.toNat > v.toNat then flagG else flagL

/-- The values `FL` can hold: 0x00 before any CMP, then one of the three (spec/10_state.md R18). -/
abbrev flagsLegal (fl : Byte) : Prop := fl = 0x00 ∨ fl = flagE ∨ fl = flagG ∨ fl = flagL

end Sys2Proof.Machine
end

