-- ==== Sys2Proof/Machine/Operands.lean ====
section
/-!
DEFINITION. The two operand forms (spec/30_encoding.md R48, R49): a register index, which is the whole operand byte, and
LDI's immediate, which is the whole operand byte too.
-/

namespace Sys2Proof.Machine

/-- A register-index operand (spec/10_state.md R13): a byte above 7 raises `InvalidRegister`; it is not masked. -/
def regIndex (operand : Byte) : Except FaultReason (Fin 8) :=
  if h : operand.toNat < 8 then .ok ⟨operand.toNat, h⟩ else .error .invalidRegister

/-- The immediate (spec/30_encoding.md R49): the byte as an unsigned number, no extension and no scaling. -/
def immediate (operand : Byte) : Nat := operand.toNat

end Sys2Proof.Machine
end

