-- ==== Sys2Proof/Machine/Alu.lean ====
section
/-!
DEFINITION. The ALU (spec/41_alu.md R75 to R82) and the five instructions it executes. The ALU is a function of the
Register File alone: by its type it cannot touch `pc`, Memory, the engine state or the output stream
(spec/40_engine_cycle.md R72).
-/

namespace Sys2Proof.Machine

/-- `ALU(tag, a, b)` (spec/41_alu.md R75). Arithmetic is exact on numbers and the register write reduces it modulo 256
(R82). `b` is ignored by INC and DEC. Any tag outside the five raises `UnsupportedOperation` (R81); the engine never
hands it one. Register indices are checked before anything is written. -/
def alu (tag : Mnemonic) (a b : Byte) (rf : RegisterFile) : Except FaultReason RegisterFile :=
  match tag with
  | .add => do
    let i ← regIndex a
    let j ← regIndex b
    return rf.write i ((rf.read i).toNat + (rf.read j).toNat)
  | .mul => do
    let i ← regIndex a
    let j ← regIndex b
    return rf.write i ((rf.read i).toNat * (rf.read j).toNat)
  | .inc => do
    let i ← regIndex a
    return rf.write i ((rf.read i).toNat + 1)
  | .dec => do
    let i ← regIndex a
    return rf.write i ((rf.read i).toNat - 1)
  | .cmp => do
    let i ← regIndex a
    let j ← regIndex b
    return { rf with fl := compareFlags (rf.read i) (rf.read j) }
  | .hlt | .ret | .push | .pop | .prn | .call | .jmp | .jeq | .jne | .ldi => .error .unsupportedOperation

/-- The engine's part in an ALU instruction (spec/41_alu.md R75): hand the operand bytes to the ALU and take its Register
File; there is no target. -/
def aluExecute (tag : Mnemonic) (a b : Byte) (s : State) : Executed := do
  let rf ← alu tag a b s.rf
  return (s.setRf rf, none)

/-- `ADD rA, rB` (spec/41_alu.md R76). -/
def execAdd (ra rb : Byte) (s : State) : Outcome := completeStep s 2 (aluExecute .add ra rb s)

/-- `MUL rA, rB` (spec/41_alu.md R77). -/
def execMul (ra rb : Byte) (s : State) : Outcome := completeStep s 2 (aluExecute .mul ra rb s)

/-- `INC rA` (spec/41_alu.md R78). -/
def execInc (ra : Byte) (s : State) : Outcome := completeStep s 1 (aluExecute .inc ra 0 s)

/-- `DEC rA` (spec/41_alu.md R79). -/
def execDec (ra : Byte) (s : State) : Outcome := completeStep s 1 (aluExecute .dec ra 0 s)

/-- `CMP rA, rB` (spec/41_alu.md R80). -/
def execCmp (ra rb : Byte) (s : State) : Outcome := completeStep s 2 (aluExecute .cmp ra rb s)

end Sys2Proof.Machine
end

