-- ==== Sys2Proof/Machine/Stack.lean ====
section
/-!
DEFINITION. The Stack Manager (spec/42_stack.md R85, R86, spec/43_control_flow.md R90, R91) and PUSH and POP (R87, R88).
The stack pointer is `x[7]`; the stack grows toward lower addresses (spec/10_state.md R14).
-/

namespace Sys2Proof.Machine

/-- The stack pointer as an address. -/
def State.sp (s : State) : Nat := (s.reg spReg).toNat

/-- The address a push stores to, and the stack pointer after it: `x[7] - 1`. A push gets that far only when `x[7]` is
above `STACK_LIMIT`, hence above 0. -/
def State.pushAddr (s : State) : Nat := s.sp - 1

/-- `push(v)` (spec/42_stack.md R85): both checks, then the decrement, then the store of `v mod 256` at the new `x[7]`. -/
def push (v : Nat) (s : State) : Except FaultReason State :=
  if s.sp ≤ s.config.stackLimit then .error .stackOverflow
  else if s.config.memSize ≤ s.pushAddr then .error .outOfRange
  else (s.setReg spReg s.pushAddr).memWrite s.pushAddr v

/-- `pop()` (spec/42_stack.md R86): the check against the constant `SP_INIT`, then the read at `x[7]`, then the increment.
The cell keeps its value. -/
def pop (s : State) : Except FaultReason (Byte × State) :=
  if s.config.spInit ≤ s.sp then .error .stackUnderflow
  else do
    let v ← s.memRead s.sp
    return (v, s.setReg spReg ((s.sp : Int) + 1))

/-- `call(return_address, target_address)` (spec/43_control_flow.md R90): push, and hand the target to the multiplexer. -/
def call (returnAddress : Nat) (target : Byte) (s : State) : Executed := do
  let t ← push returnAddress s
  return (t, some target)

/-- `ret()` (spec/43_control_flow.md R91): pop; the engine loads the byte into `pc`. -/
def ret (s : State) : Executed := do
  let (v, t) ← pop s
  return (t, some v)

/-- `PUSH rA` (spec/42_stack.md R87): the value is read before the stack pointer moves. -/
def execPush (ra : Byte) (s : State) : Outcome :=
  completeStep s 1 do
    let a ← regIndex ra
    let t ← push (s.reg a).toNat s
    return (t, none)

/-- `POP rA` (spec/42_stack.md R88): the register index is checked first (spec/92_eei_decisions.md D11), and the register is
written after the stack pointer, so that `POP r7` ends with the popped byte in `x[7]`. -/
def execPop (ra : Byte) (s : State) : Outcome :=
  completeStep s 1 do
    let a ← regIndex ra
    let (v, t) ← pop s
    return (t.setReg a v.toNat, none)

end Sys2Proof.Machine
end

