-- ==== Sys2Proof/Machine/Control.lean ====
section
/-!
DEFINITION. Control transfer: CALL, RET, JMP, JEQ, JNE (spec/43_control_flow.md R92 to R97). A target is the byte of a
register or of the stack, taken as it is: no check is made on it (R97).
-/

namespace Sys2Proof.Machine

/-- `CALL rA` (spec/43_control_flow.md R92): the return address is `pc + 2`, the byte after CALL's operand; the target is read
before the stack pointer moves. -/
def execCall (ra : Byte) (s : State) : Outcome :=
  completeStep s 1 do
    let a ← regIndex ra
    call (s.pc + 2) (s.reg a) s

/-- `RET` (spec/43_control_flow.md R93). -/
def execRet (s : State) : Outcome := completeStep s 0 (ret s)

/-- A jump to the address in a register, taken if `taken` holds; the register index is checked either way
(spec/10_state.md R13, spec/92_eei_decisions.md D12). -/
def jumpIf (taken : Bool) (ra : Byte) (s : State) : Executed := do
  let a ← regIndex ra
  return (s, if taken then some (s.reg a) else none)

/-- `JMP rA` (spec/43_control_flow.md R94). -/
def execJmp (ra : Byte) (s : State) : Outcome := completeStep s 1 (jumpIf true ra s)

/-- `JEQ rA` (spec/43_control_flow.md R95): taken when `FL.E` is 1. -/
def execJeq (ra : Byte) (s : State) : Outcome := completeStep s 1 (jumpIf s.flagEqual ra s)

/-- `JNE rA` (spec/43_control_flow.md R96): taken when `FL.E` is 0. -/
def execJne (ra : Byte) (s : State) : Outcome := completeStep s 1 (jumpIf (!s.flagEqual) ra s)

end Sys2Proof.Machine
end

