-- ==== Sys2Proof/Machine/System.lean ====
section
/-!
DEFINITION. Data movement, output and the halt: LDI, PRN, HLT (spec/44_data_io_system.md R100 to R103).
-/

namespace Sys2Proof.Machine

/-- `LDI rA, imm` (spec/44_data_io_system.md R100). -/
def execLdi (ra imm : Byte) (s : State) : Outcome :=
  completeStep s 2 do
    let a ← regIndex ra
    return (s.setReg a (immediate imm), none)

/-- `PRN rA` (spec/44_data_io_system.md R101). -/
def execPrn (ra : Byte) (s : State) : Outcome :=
  completeStep s 1 do
    let a ← regIndex ra
    return (s.emit (s.reg a), none)

/-- `HLT` (spec/44_data_io_system.md R102): the multiplexer holds `pc` (spec/40_engine_cycle.md R66). -/
def execHlt (s : State) : Outcome := .next s.halt

end Sys2Proof.Machine
end

