-- ==== Sys2Proof/Machine/Fetch.lean ====
section
/-!
DEFINITION. The first three parts of a Step: fetch, decode, operand fetch (spec/40_engine_cycle.md R61 to R64), and the
placing of a table word where the next fetch finds it.
-/

namespace Sys2Proof.Machine

/-- Decode as the engine sees it: an unknown opcode byte raises `IllegalOpcode` (spec/40_engine_cycle.md R63). -/
def decodeStage (c : Config) (ir : Byte) : Except FaultReason Shape :=
  match decodeShape c ir with
  | .ok shape => .ok shape
  | .error _ => .error .illegalOpcode

/-- One operand byte, read only if the shape asks for it (spec/40_engine_cycle.md R64). -/
def fetchOperand (s : State) (wanted : Bool) (addr : Nat) : Except FaultReason Byte :=
  if wanted then s.memRead addr else .ok 0

/-- The instruction at `pc` (spec/40_engine_cycle.md R61, parts 1 to 3): the opcode byte at `pc`, its shape, then the operand
bytes at `pc + 1` and `pc + 2`, in that order and without wrapping. All bytes are fetched before any effect. -/
def fetch (s : State) : Except FaultReason Instr := do
  let ir ← s.memRead s.pc
  let shape ← decodeStage s.config ir
  let opA ← fetchOperand s (1 ≤ shape.nops) (s.pc + 1)
  let opB ← fetchOperand s (shape.nops == 2) (s.pc + 2)
  return shape.mnemonic.instr opA opB

/-- Put bytes at consecutive addresses from `a` on, those that fall below `N`. -/
def State.placeBytes (s : State) (a : Nat) : List Byte → State
  | [] => s
  | b :: bs =>
    if a < s.config.memSize then State.placeBytes (s.setByte a b) (a + 1) bs
    else s

/-- The state with a table word at `pc` and an engine that will fetch it: a terminal engine state becomes `Running`, the
other two stay, since both fetch at `pc` on the next step. -/
def State.placeWord (s : State) (nbits w : Nat) : State :=
  let t := s.placeBytes s.pc (tableWordBytes nbits w)
  match s.st with
  | .ready => t
  | .running => t
  | .halted => t.start
  | .faulted _ => t.start

end Sys2Proof.Machine
end

