-- ==== Sys2Proof/Machine/Engine.lean ====
section
/-!
DEFINITION. The Execution Engine: the Step (spec/40_engine_cycle.md R61), the single step `tick()` (R69) and the
run-to-halt loop `run()` (R68).
-/

namespace Sys2Proof.Machine

/-- `Step`, for `st = Running` (spec/40_engine_cycle.md R61): fetch, decode and operand fetch, then execute and the
multiplexer. A raise of the first three parts takes the fault (R67). -/
def engineStep (s : State) : Outcome :=
  match fetch s with
  | .error reason => .next (s.takeFault reason)
  | .ok i => exec i s

/-- `tick()` (spec/40_engine_cycle.md R69, R60): from `Ready` it first enters `Running`; a terminal state is left
unchanged. -/
def tick (s : State) : Outcome :=
  match s.st with
  | .ready => engineStep s.start
  | .running => engineStep s
  | .halted => .next s
  | .faulted _ => .next s

/-- The loop of `run()`: while `st = Running`, a Step. `fuel` bounds the Steps taken, since a run need not return
(spec/70_reset_and_hazards.md R132); a run that used its fuel up is neither halted nor faulted. -/
def runLoop : Nat → State → Outcome
  | 0, s => .next s
  | fuel + 1, s =>
    match s.st with
    | .running =>
      match engineStep s with
      | .next t => runLoop fuel t
      | .fault f => .fault f
      | .refused r => .refused r
    | .ready => .next s
    | .halted => .next s
    | .faulted _ => .next s

/-- `run()` (spec/40_engine_cycle.md R68): from `Ready` it first enters `Running`; in a terminal state it does nothing. -/
def run (fuel : Nat) (s : State) : Outcome :=
  match s.st with
  | .ready => runLoop fuel s.start
  | .running => runLoop fuel s
  | .halted => .next s
  | .faulted _ => .next s

end Sys2Proof.Machine
end

