-- ==== Sys2Proof/Machine/Step.lean ====
section
/-!
DEFINITION. The machine's step: the host's single step `tick()` of spec/40_engine_cycle.md R69. It answers a next state
in every state: a fault is the next state `Faulted(reason)` (spec/60_exceptions.md R114), and a terminal state stays as it
is (spec/40_engine_cycle.md R60).
-/

namespace Sys2Proof.Machine

/-- One step of the machine: one `tick()`. -/
def step (s : State) : Host.Outcome State Fault Refusal := tick s

/-- `s` with a table word stored where the next step fetches its instruction; it stands for the loader of
spec/20_memory.md R44 (notes/assumptions/2.md). -/
def State.withFetchWord (s : State) (nbits w : Nat) : State := s.placeWord nbits w

end Sys2Proof.Machine
end

