-- ==== Sys2Proof/Machine/HostInterface.lean ====
section
/-!
DEFINITION. What the host can do to the core besides `reset`, `run()` and `tick()` (spec/92_eei_decisions.md D20): load a
byte or an image (spec/20_memory.md R44), take the trace snapshot (spec/10_state.md R27), and see what the sink shows
(R21).
-/

namespace Sys2Proof.Machine

/-! ### The loader -/

/-- One loader write, `load(i, byte)` of spec/92_eei_decisions.md D20: accepted in `Ready` only (spec/20_memory.md R44), with
no effect in the other engine states (D22). DESIGN CHOICE: one at an address at or past `N` has no effect either, since the
spec says what happens to a whole image that is too long and not to a single such write (notes/assumptions/15.md). -/
def State.loadByte (s : State) (a : Nat) (b : Byte) : State :=
  match s.st with
  | .ready => if a < s.config.memSize then s.setByte a b else s
  | .running => s
  | .halted => s
  | .faulted _ => s

/-- Loader writes at ascending addresses from `a` on. -/
def State.loadFrom (s : State) (a : Nat) : List Byte → State
  | [] => s
  | b :: bs => State.loadFrom (s.loadByte a b) (a + 1) bs

/-- Load a program image from address 0 upward (spec/20_memory.md R44). An image longer than `N` is the host's error and is
refused whole before any write: `none`. -/
def State.loadImage (s : State) (image : List Byte) : Option State :=
  if s.config.memSize < image.length then none else some (s.loadFrom 0 image)

/-! ### The trace snapshot -/

/-- The trace snapshot (spec/10_state.md R27); a byte whose address is `>= N` is absent. -/
structure Snapshot where
  pc : Nat
  byte0 : Option Byte
  byte1 : Option Byte
  byte2 : Option Byte
  x : Vector Byte 8
deriving DecidableEq, Repr

/-- A memory byte as the snapshot reports it. -/
def State.snapshotByte (s : State) (a : Nat) : Option Byte :=
  if a < s.config.memSize then some (s.byteAt a) else none

/-- `snapshot()`, in any engine state; it reads and changes nothing (spec/10_state.md R27). -/
def State.snapshot (s : State) : Snapshot :=
  { pc := s.pc
    byte0 := s.snapshotByte s.pc
    byte1 := s.snapshotByte (s.pc + 1)
    byte2 := s.snapshotByte (s.pc + 2)
    x := s.rf.x }

/-! ### The sink -/

/-- One value as the sink shows it: the shortest decimal numeral and a newline (spec/10_state.md R21). -/
def sinkLine (v : Byte) : String := toString v.toNat ++ "\n"

/-- Everything the sink shows, in the order of execution. -/
def sinkText (out : List Byte) : String := out.foldl (fun shown v => shown ++ sinkLine v) ""

end Sys2Proof.Machine
end

