-- ==== Sys2Proof/Machine/TextForms.lean ====
section
/-!
DEFINITION. The two text forms the spec gives beside the core: the program image as text (spec/30_encoding.md R57) and the
assembler spelling (R56). Both are outside the core (spec/00_scope.md R3, spec/92_eei_decisions.md D28): nothing in the
machine reads them.
-/

namespace Sys2Proof.Machine

/-! ### The image text -/

/-- The lines of a text. -/
def splitLines : List Char → List (List Char)
  | [] => [[]]
  | c :: cs =>
    if c = '\n' then [] :: splitLines cs
    else
      match splitLines cs with
      | [] => [[c]]
      | line :: lines => (c :: line) :: lines

/-- A line without its `#` comment and without white space at its ends (spec/30_encoding.md R57). -/
def strippedLine (line : List Char) : List Char :=
  (((line.takeWhile (· ≠ '#')).dropWhile Char.isWhitespace).reverse.dropWhile Char.isWhitespace).reverse

/-- A binary literal: digits 0 and 1 and nothing else. -/
def parseBinary (digits : List Char) : Option Nat :=
  digits.foldl (fun acc c => acc.bind fun n => if c = '0' then some (2 * n) else if c = '1' then some (2 * n + 1) else none)
    (some 0)

/-- The bytes of one line: none for a blank or comment line, else one. A text that is not a binary literal of an 8-bit
value has no bytes (notes/assumptions/13.md). -/
def parseLine (line : List Char) : Option (List Byte) :=
  match strippedLine line with
  | [] => some []
  | digits =>
    match parseBinary digits with
    | some n => if n < 256 then some [BitVec.ofNat 8 n] else none
    | none => none

/-- The bytes of a list of lines, one after another. -/
def parseLines : List (List Char) → Option (List Byte)
  | [] => some []
  | line :: lines => do
    let bytes ← parseLine line
    let rest ← parseLines lines
    return bytes ++ rest

/-- The program image a text stands for (spec/30_encoding.md R57); `none` where a line is no 8-bit binary literal. -/
def parseImage (text : String) : Option (List Byte) := parseLines (splitLines text.toList)

/-! ### The assembler spelling -/

/-- The mnemonic in upper case (spec/30_encoding.md R56). -/
def Mnemonic.spelling : Mnemonic → String
  | .hlt => "HLT"
  | .ret => "RET"
  | .push => "PUSH"
  | .pop => "POP"
  | .prn => "PRN"
  | .call => "CALL"
  | .jmp => "JMP"
  | .jeq => "JEQ"
  | .jne => "JNE"
  | .inc => "INC"
  | .dec => "DEC"
  | .ldi => "LDI"
  | .add => "ADD"
  | .mul => "MUL"
  | .cmp => "CMP"

/-- A register operand, `r0` to `r7`; one above 7 has no spelling (spec/30_encoding.md R56). -/
def regSpelling (operand : Byte) : Option String :=
  if operand.toNat < 8 then some ("r" ++ toString operand.toNat) else none

/-- The operands of an instruction, separated by a comma; the immediate in decimal. -/
def operandSpelling : Instr → Option String
  | .hlt => some ""
  | .ret => some ""
  | .push ra => (regSpelling ra).map (" " ++ ·)
  | .pop ra => (regSpelling ra).map (" " ++ ·)
  | .prn ra => (regSpelling ra).map (" " ++ ·)
  | .call ra => (regSpelling ra).map (" " ++ ·)
  | .jmp ra => (regSpelling ra).map (" " ++ ·)
  | .jeq ra => (regSpelling ra).map (" " ++ ·)
  | .jne ra => (regSpelling ra).map (" " ++ ·)
  | .inc ra => (regSpelling ra).map (" " ++ ·)
  | .dec ra => (regSpelling ra).map (" " ++ ·)
  | .ldi ra imm => (regSpelling ra).map fun a => " " ++ a ++ ", " ++ toString imm.toNat
  | .add ra rb => do return " " ++ (← regSpelling ra) ++ ", " ++ (← regSpelling rb)
  | .mul ra rb => do return " " ++ (← regSpelling ra) ++ ", " ++ (← regSpelling rb)
  | .cmp ra rb => do return " " ++ (← regSpelling ra) ++ ", " ++ (← regSpelling rb)

/-- An instruction in the spelling of spec/30_encoding.md R56. -/
def listing (i : Instr) : Option String := (operandSpelling i).map (Mnemonic.spelling i.mnemonic ++ ·)

end Sys2Proof.Machine
end

