-- ==== Sys2Proof/Safety.lean ====
section
/-!
DEFINITION. What counts as a legal state and a successful run, and the words the claims are written in: which registers
and bytes two states agree on, the bytes a fetch sees, sequences of pushes and pops.
-/

namespace Sys2Proof.Machine

/-! ### Legal states and successful runs -/

/-- The machine's invariant: the parameters are within their bounds (spec/00_scope.md R4), memory lists
only addresses inside the address space (spec/10_state.md R22), in the canonical form that is the model's own choice
(notes/assumptions/9.md), `pc` holds at most 256 (R16 where `N` = 256; for a smaller `N` the model's reading,
notes/assumptions/8.md), and `FL` holds one of its four values (R18). -/
structure State.Inv (s : State) : Prop where
  config : s.config.wf
  memory : s.mem.wf
  bounds : s.mem.below s.config.memSize
  pc : s.pc ≤ 256
  flags : flagsLegal s.fl

/-- `Halted` or `Faulted(reason)` (spec/10_state.md R20). -/
def EngineState.terminal : EngineState → Bool
  | .ready => false
  | .running => false
  | .halted => true
  | .faulted _ => true

/-- A successful run ends in `Halted`; a fault is not success (spec/60_exceptions.md R114, R116). -/
def State.succeeded (s : State) : Prop := s.st = .halted

/-! ### Agreement of two states -/

/-- The register-index byte `operand` names register `i`. -/
abbrev Names (operand : Byte) (i : Fin 8) : Prop := operand.toNat = i.val

/-- Every general register but those listed holds what it held. -/
def RegsSameBut (written : List (Fin 8)) (s t : State) : Prop := ∀ i, i ∉ written → t.reg i = s.reg i

/-- Every byte of memory reads as it did. -/
def MemorySame (s t : State) : Prop := ∀ a, t.byteAt a = s.byteAt a

/-- Every byte of memory but the one at `written` reads as it did. -/
def MemorySameBut (written : Nat) (s t : State) : Prop := ∀ a, a ≠ written → t.byteAt a = s.byteAt a

/-- Two states that differ at most in `FL.G`, `FL.L` and the bits 7:3 of `FL`. -/
abbrev SameButUnreadFlags (s u : State) : Prop :=
  u.config = s.config ∧ u.mem = s.mem ∧ u.rf.x = s.rf.x ∧ u.pc = s.pc ∧ u.st = s.st ∧ u.out = s.out ∧
    u.flagEqual = s.flagEqual

/-! ### Fetching -/

/-- The bytes at `pc`, `pc + 1` and `pc + 2` that are inside Memory: all that one Step can fetch. -/
def State.codeBytes (s : State) : List Byte :=
  ([s.pc, s.pc + 1, s.pc + 2].filter (· < s.config.memSize)).map s.byteAt

/-- With the opcode byte of `i` inside Memory and its last operand byte past the end, a Step faults with `OutOfRange`
(spec/60_exceptions.md R106 (b), (c)). -/
def OperandPastEndFaults (i : Instr) : Prop :=
  ∀ s : State, s.st = .running → i.inTable s.config = true → s.pc < s.config.memSize →
    (encode i).head? = some (s.byteAt s.pc) → s.config.memSize < s.pc + (encode i).length →
    step s = .next (s.takeFault .outOfRange)

/-! ### Sequences of ticks, pushes and pops -/

/-- `k` calls of `tick()`, one after another. -/
def ticks : Nat → State → Outcome
  | 0, s => .next s
  | k + 1, s =>
    match step s with
    | .next t => ticks k t
    | .fault f => .fault f
    | .refused r => .refused r

/-- Push the values one after another, the first first. -/
def pushAll : List Byte → State → Except FaultReason State
  | [], s => .ok s
  | v :: vs, s => do
    let t ← push v.toNat s
    pushAll vs t

/-- Pop `k` times; the values in the order they came. -/
def popMany : Nat → State → Except FaultReason (List Byte × State)
  | 0, s => .ok ([], s)
  | k + 1, s => do
    let (v, t) ← pop s
    let (vs, u) ← popMany k t
    return (v :: vs, u)

end Sys2Proof.Machine
end

