-- ==== Sys2Proof/Certificates/Slice0/Obligations.lean ====
section
/-!
DEFINITION. The statements about the machine, for the provers. Each docstring names the rule of spec/ it formalises.
`encode`, `decode`, `exec`, `step` are the model's; `Names`, `RegsSameBut`, `MemorySame`, `MemorySameBut`,
`OperandPastEndFaults` and the like are defined in Sys2Proof/Safety.lean. A statement about a byte that was just stored
has the canonical form of memory (`Memory.wf`, notes/assumptions/9.md) as a premise: `Obligations.StepKeepsInvariant` states that every step
keeps it.
-/

open Sys2Proof Sys2Proof.Machine

/-! ### The fifteen instructions: encoding, result and frame, faults -/

/-- spec/41_alu.md R76, whole: bytes `0xA0, a, b`; `x[a] <- (x[a] + x[b]) mod 256`; no flag; `InvalidRegister` when either
index is above 7; `OutOfRange` when an operand byte is past the end. -/
def Obligations.AddWritesSumModulo256 : Prop :=
  ∀ ra rb : Byte,
    (∀ c rest, decode c (0xA0 :: ra :: rb :: rest) = .ok (.add ra rb, rest)) ∧
    (∀ (s : State) (a b : Fin 8), Names ra a → Names rb b → ∃ t, exec (.add ra rb) s = .next t ∧
      (t.reg a).toNat = ((s.reg a).toNat + (s.reg b).toNat) % 256 ∧ RegsSameBut [a] s t ∧ t.fl = s.fl ∧
      t.pc = s.pc + 3 ∧ MemorySame s t ∧ t.out = s.out ∧ t.st = s.st ∧ t.config = s.config) ∧
    (∀ s : State, 7 < ra.toNat ∨ 7 < rb.toNat → exec (.add ra rb) s = .next (s.takeFault .invalidRegister)) ∧
    OperandPastEndFaults (.add ra rb)

/-- spec/41_alu.md R77, whole: bytes `0xA2, a, b`; the low eight bits of the product; faults as ADD. -/
def Obligations.MulWritesLowByteOfProduct : Prop :=
  ∀ ra rb : Byte,
    (∀ c rest, decode c (0xA2 :: ra :: rb :: rest) = .ok (.mul ra rb, rest)) ∧
    (∀ (s : State) (a b : Fin 8), Names ra a → Names rb b → ∃ t, exec (.mul ra rb) s = .next t ∧
      (t.reg a).toNat = ((s.reg a).toNat * (s.reg b).toNat) % 256 ∧ RegsSameBut [a] s t ∧ t.fl = s.fl ∧
      t.pc = s.pc + 3 ∧ MemorySame s t ∧ t.out = s.out ∧ t.st = s.st ∧ t.config = s.config) ∧
    (∀ s : State, 7 < ra.toNat ∨ 7 < rb.toNat → exec (.mul ra rb) s = .next (s.takeFault .invalidRegister)) ∧
    OperandPastEndFaults (.mul ra rb)

/-- spec/41_alu.md R78, whole: bytes `0x65, a` (in a core that has INC, spec/92_eei_decisions.md D7);
`x[a] <- (x[a] + 1) mod 256`; no flag; faults. -/
def Obligations.IncWritesSuccessorModulo256 : Prop :=
  ∀ ra : Byte,
    (∀ c rest, c.incDec = true → decode c (0x65 :: ra :: rest) = .ok (.inc ra, rest)) ∧
    (∀ (s : State) (a : Fin 8), Names ra a → ∃ t, exec (.inc ra) s = .next t ∧
      (t.reg a).toNat = ((s.reg a).toNat + 1) % 256 ∧ RegsSameBut [a] s t ∧ t.fl = s.fl ∧
      t.pc = s.pc + 2 ∧ MemorySame s t ∧ t.out = s.out ∧ t.st = s.st ∧ t.config = s.config) ∧
    (∀ s : State, 7 < ra.toNat → exec (.inc ra) s = .next (s.takeFault .invalidRegister)) ∧
    OperandPastEndFaults (.inc ra)

/-- spec/41_alu.md R79, whole: bytes `0x66, a` (in a core that has DEC, spec/92_eei_decisions.md D7);
`x[a] <- (x[a] - 1) mod 256`, which is `(u + 255) mod 256` (R82); no flag; faults as INC. -/
def Obligations.DecWritesPredecessorModulo256 : Prop :=
  ∀ ra : Byte,
    (∀ c rest, c.incDec = true → decode c (0x66 :: ra :: rest) = .ok (.dec ra, rest)) ∧
    (∀ (s : State) (a : Fin 8), Names ra a → ∃ t, exec (.dec ra) s = .next t ∧
      (t.reg a).toNat = ((s.reg a).toNat + 255) % 256 ∧ RegsSameBut [a] s t ∧ t.fl = s.fl ∧
      t.pc = s.pc + 2 ∧ MemorySame s t ∧ t.out = s.out ∧ t.st = s.st ∧ t.config = s.config) ∧
    (∀ s : State, 7 < ra.toNat → exec (.dec ra) s = .next (s.takeFault .invalidRegister)) ∧
    OperandPastEndFaults (.dec ra)

/-- spec/41_alu.md R80, whole: bytes `0xA7, a, b`; the whole of `FL` becomes 0x01, 0x02 or 0x04 by the unsigned compare of
`x[a]` with `x[b]`; no register is written; faults as ADD. -/
def Obligations.CmpWritesOneOfThreeFlags : Prop :=
  ∀ ra rb : Byte,
    (∀ c rest, decode c (0xA7 :: ra :: rb :: rest) = .ok (.cmp ra rb, rest)) ∧
    (∀ (s : State) (a b : Fin 8), Names ra a → Names rb b → ∃ t, exec (.cmp ra rb) s = .next t ∧
      ((s.reg a).toNat = (s.reg b).toNat → t.fl = 0x01) ∧
      ((s.reg a).toNat > (s.reg b).toNat → t.fl = 0x02) ∧
      ((s.reg a).toNat < (s.reg b).toNat → t.fl = 0x04) ∧
      RegsSameBut [] s t ∧ t.pc = s.pc + 3 ∧ MemorySame s t ∧ t.out = s.out ∧ t.st = s.st ∧ t.config = s.config) ∧
    (∀ s : State, 7 < ra.toNat ∨ 7 < rb.toNat → exec (.cmp ra rb) s = .next (s.takeFault .invalidRegister)) ∧
    OperandPastEndFaults (.cmp ra rb)

/-- spec/42_stack.md R87, whole: bytes `0x45, a`; the value of `x[a]` before the decrement is stored at `x[7] - 1`, which
becomes `x[7]`; no flag; `pc + 2`; the faults, in their order. -/
def Obligations.PushStoresBelowStackPointer : Prop :=
  ∀ ra : Byte,
    (∀ c rest, decode c (0x45 :: ra :: rest) = .ok (.push ra, rest)) ∧
    (∀ (s : State) (a : Fin 8), s.mem.wf → Names ra a → s.config.stackLimit < s.sp →
      s.pushAddr < s.config.memSize → ∃ t, exec (.push ra) s = .next t ∧
      s.pushAddr + 1 = s.sp ∧ t.byteAt s.pushAddr = s.reg a ∧ MemorySameBut s.pushAddr s t ∧ t.sp = s.pushAddr ∧
      RegsSameBut [spReg] s t ∧ t.fl = s.fl ∧ t.pc = s.pc + 2 ∧ t.out = s.out ∧ t.st = s.st ∧ t.config = s.config) ∧
    (∀ s : State, 7 < ra.toNat → exec (.push ra) s = .next (s.takeFault .invalidRegister)) ∧
    (∀ (s : State) (a : Fin 8), Names ra a → s.sp ≤ s.config.stackLimit →
      exec (.push ra) s = .next (s.takeFault .stackOverflow)) ∧
    (∀ (s : State) (a : Fin 8), Names ra a → s.config.stackLimit < s.sp → s.config.memSize ≤ s.pushAddr →
      exec (.push ra) s = .next (s.takeFault .outOfRange)) ∧
    OperandPastEndFaults (.push ra)

/-- spec/42_stack.md R88, whole: bytes `0x46, a`; `x[a]` becomes the byte at `x[7]`, after `x[7]` was incremented, so that
POP into register 7 leaves the popped byte there; the cell keeps its value; the faults, in their order. -/
def Obligations.PopLoadsTopOfStack : Prop :=
  ∀ ra : Byte,
    (∀ c rest, decode c (0x46 :: ra :: rest) = .ok (.pop ra, rest)) ∧
    (∀ (s : State) (a : Fin 8), s.config.wf → Names ra a → s.sp < s.config.spInit → ∃ t, exec (.pop ra) s = .next t ∧
      t.reg a = s.byteAt s.sp ∧ (a ≠ spReg → t.sp = s.sp + 1) ∧ RegsSameBut [a, spReg] s t ∧ MemorySame s t ∧
      t.fl = s.fl ∧ t.pc = s.pc + 2 ∧ t.out = s.out ∧ t.st = s.st ∧ t.config = s.config) ∧
    (∀ s : State, 7 < ra.toNat → exec (.pop ra) s = .next (s.takeFault .invalidRegister)) ∧
    (∀ (s : State) (a : Fin 8), Names ra a → s.config.spInit ≤ s.sp →
      exec (.pop ra) s = .next (s.takeFault .stackUnderflow)) ∧
    OperandPastEndFaults (.pop ra)

/-- spec/43_control_flow.md R92, whole: bytes `0x50, a`; `(pc + 2) mod 256` is stored at `x[7] - 1`, which becomes `x[7]`,
and `pc` becomes `x[a]` as it was before; the faults, in their order. -/
def Obligations.CallPushesReturnAddress : Prop :=
  ∀ ra : Byte,
    (∀ c rest, decode c (0x50 :: ra :: rest) = .ok (.call ra, rest)) ∧
    (∀ (s : State) (a : Fin 8), s.mem.wf → Names ra a → s.config.stackLimit < s.sp →
      s.pushAddr < s.config.memSize → ∃ t, exec (.call ra) s = .next t ∧
      s.pushAddr + 1 = s.sp ∧ (t.byteAt s.pushAddr).toNat = (s.pc + 2) % 256 ∧ MemorySameBut s.pushAddr s t ∧
      t.sp = s.pushAddr ∧ t.pc = (s.reg a).toNat ∧
      RegsSameBut [spReg] s t ∧ t.fl = s.fl ∧ t.out = s.out ∧ t.st = s.st ∧ t.config = s.config) ∧
    (∀ s : State, 7 < ra.toNat → exec (.call ra) s = .next (s.takeFault .invalidRegister)) ∧
    (∀ (s : State) (a : Fin 8), Names ra a → s.sp ≤ s.config.stackLimit →
      exec (.call ra) s = .next (s.takeFault .stackOverflow)) ∧
    (∀ (s : State) (a : Fin 8), Names ra a → s.config.stackLimit < s.sp → s.config.memSize ≤ s.pushAddr →
      exec (.call ra) s = .next (s.takeFault .outOfRange)) ∧
    OperandPastEndFaults (.call ra)

/-- spec/43_control_flow.md R93, whole: byte `0x11`; `pc` becomes the byte at `x[7]`, and `x[7]` is incremented;
`StackUnderflow` when `x[7] >= SP_INIT`, with nothing changed but the engine state. -/
def Obligations.RetPopsProgramCounter : Prop :=
  (∀ c rest, decode c (0x11 :: rest) = .ok (.ret, rest)) ∧
  (∀ s : State, s.config.wf → s.sp < s.config.spInit → ∃ t, exec .ret s = .next t ∧
    t.pc = (s.byteAt s.sp).toNat ∧ t.sp = s.sp + 1 ∧ RegsSameBut [spReg] s t ∧ MemorySame s t ∧
    t.fl = s.fl ∧ t.out = s.out ∧ t.st = s.st ∧ t.config = s.config) ∧
  (∀ s : State, s.config.spInit ≤ s.sp → exec .ret s = .next (s.takeFault .stackUnderflow))

/-- spec/43_control_flow.md R94, whole: bytes `0x54, a`; `pc` becomes `x[a]`, unchecked (R97), and nothing else changes; faults. -/
def Obligations.JmpLoadsRegisterIntoPc : Prop :=
  ∀ ra : Byte,
    (∀ c rest, decode c (0x54 :: ra :: rest) = .ok (.jmp ra, rest)) ∧
    (∀ (s : State) (a : Fin 8), Names ra a → ∃ t, exec (.jmp ra) s = .next t ∧
      t.pc = (s.reg a).toNat ∧ RegsSameBut [] s t ∧ MemorySame s t ∧
      t.fl = s.fl ∧ t.out = s.out ∧ t.st = s.st ∧ t.config = s.config) ∧
    (∀ s : State, 7 < ra.toNat → exec (.jmp ra) s = .next (s.takeFault .invalidRegister)) ∧
    OperandPastEndFaults (.jmp ra)

/-- spec/43_control_flow.md R95, whole: bytes `0x55, a`; taken to `x[a]` when bit 0 of `FL` is 1, else `pc + 2`; the register
operand is checked either way; no flag is written; faults. -/
def Obligations.JeqJumpsWhenEqual : Prop :=
  ∀ ra : Byte,
    (∀ c rest, decode c (0x55 :: ra :: rest) = .ok (.jeq ra, rest)) ∧
    (∀ (s : State) (a : Fin 8), Names ra a → ∃ t, exec (.jeq ra) s = .next t ∧
      (s.fl.getLsbD 0 = true → t.pc = (s.reg a).toNat) ∧ (s.fl.getLsbD 0 = false → t.pc = s.pc + 2) ∧
      RegsSameBut [] s t ∧ MemorySame s t ∧ t.fl = s.fl ∧ t.out = s.out ∧ t.st = s.st ∧ t.config = s.config) ∧
    (∀ s : State, 7 < ra.toNat → exec (.jeq ra) s = .next (s.takeFault .invalidRegister)) ∧
    OperandPastEndFaults (.jeq ra)

/-- spec/43_control_flow.md R96, whole: bytes `0x56, a`; taken to `x[a]` when bit 0 of `FL` is 0, else `pc + 2`; faults as JEQ. -/
def Obligations.JneJumpsWhenNotEqual : Prop :=
  ∀ ra : Byte,
    (∀ c rest, decode c (0x56 :: ra :: rest) = .ok (.jne ra, rest)) ∧
    (∀ (s : State) (a : Fin 8), Names ra a → ∃ t, exec (.jne ra) s = .next t ∧
      (s.fl.getLsbD 0 = false → t.pc = (s.reg a).toNat) ∧ (s.fl.getLsbD 0 = true → t.pc = s.pc + 2) ∧
      RegsSameBut [] s t ∧ MemorySame s t ∧ t.fl = s.fl ∧ t.out = s.out ∧ t.st = s.st ∧ t.config = s.config) ∧
    (∀ s : State, 7 < ra.toNat → exec (.jne ra) s = .next (s.takeFault .invalidRegister)) ∧
    OperandPastEndFaults (.jne ra)

/-- spec/44_data_io_system.md R100, whole: bytes `0x82, a, imm`; `x[a]` becomes the immediate byte, any byte; faults. -/
def Obligations.LdiWritesImmediate : Prop :=
  ∀ ra imm : Byte,
    (∀ c rest, decode c (0x82 :: ra :: imm :: rest) = .ok (.ldi ra imm, rest)) ∧
    (∀ (s : State) (a : Fin 8), Names ra a → ∃ t, exec (.ldi ra imm) s = .next t ∧
      t.reg a = imm ∧ RegsSameBut [a] s t ∧ t.fl = s.fl ∧
      t.pc = s.pc + 3 ∧ MemorySame s t ∧ t.out = s.out ∧ t.st = s.st ∧ t.config = s.config) ∧
    (∀ s : State, 7 < ra.toNat → exec (.ldi ra imm) s = .next (s.takeFault .invalidRegister)) ∧
    OperandPastEndFaults (.ldi ra imm)

/-- spec/44_data_io_system.md R101, whole: bytes `0x47, a`; appends `x[a]` to `OUT`, so that the sink shows one more line, the
unsigned decimal numeral and a newline, and changes nothing else but `pc`; faults. -/
def Obligations.PrnEmitsRegister : Prop :=
  ∀ ra : Byte,
    (∀ c rest, decode c (0x47 :: ra :: rest) = .ok (.prn ra, rest)) ∧
    (∀ (s : State) (a : Fin 8), Names ra a → ∃ t, exec (.prn ra) s = .next t ∧
      t.out = s.out ++ [s.reg a] ∧ sinkText t.out = sinkText s.out ++ toString (s.reg a).toNat ++ "\n" ∧
      RegsSameBut [] s t ∧ t.fl = s.fl ∧ t.pc = s.pc + 2 ∧ MemorySame s t ∧ t.st = s.st ∧ t.config = s.config) ∧
    (∀ s : State, 7 < ra.toNat → exec (.prn ra) s = .next (s.takeFault .invalidRegister)) ∧
    OperandPastEndFaults (.prn ra)

/-- spec/44_data_io_system.md R102: byte `0x01`; the engine state becomes `Halted`, and `pc`, `x`, `FL`, `M` and `OUT` stay.
HLT has no fault of its own. -/
def Obligations.HltHaltsAndHoldsPc : Prop :=
  (∀ c rest, decode c (0x01 :: rest) = .ok (.hlt, rest)) ∧
  (∀ s : State, ∃ t, exec .hlt s = .next t ∧ t.st = .halted ∧ t.pc = s.pc ∧ RegsSameBut [] s t ∧ t.fl = s.fl ∧
    MemorySame s t ∧ t.out = s.out ∧ t.config = s.config)

/-! ### Registers, memory and the stack -/

/-- spec/10_state.md R12: a register write stores the value modulo 256, for any integer, negative included, and leaves the
other registers and the flags. -/
def Obligations.RegisterWriteWrapsModulo256 : Prop :=
  ∀ (rf : RegisterFile) (i : Fin 8) (v : Int),
    (((rf.write i v).read i).toNat : Int) = v % 256 ∧ (∀ k, k ≠ i → (rf.write i v).read k = rf.read k) ∧
    (rf.write i v).fl = rf.fl

/-- spec/10_state.md R13, spec/60_exceptions.md R107: a register operand above 7, first or second, faults with
`InvalidRegister` before any effect, in every instruction and whether or not the register would be read; and a running
machine takes that fault in no other case. -/
def Obligations.InvalidRegisterBeforeAnyEffect : Prop :=
  (∀ (i : Instr) (s : State), (∃ r ∈ i.registerOperands, 7 < r.toNat) →
    exec i s = .next (s.takeFault .invalidRegister)) ∧
  (∀ (i : Instr) (s t : State), s.st = .running → exec i s = .next t → t.st = .faulted .invalidRegister →
    ∃ r ∈ i.registerOperands, 7 < r.toNat)

/-- spec/20_memory.md R31: a read inside the bounds gives the byte there; one at or past `N` fails with `OutOfRange`,
whatever the address is modulo 256. -/
def Obligations.MemReadNeverWraps : Prop :=
  ∀ (s : State) (addr : Nat),
    (addr < s.config.memSize → s.memRead addr = .ok (s.byteAt addr)) ∧
    (s.config.memSize ≤ addr → s.memRead addr = .error .outOfRange)

/-- spec/20_memory.md R32: a write inside the bounds stores `v mod 256` there and changes no other byte and no other state;
one at or past `N` fails with `OutOfRange`. -/
def Obligations.MemWriteTruncates : Prop :=
  ∀ (s : State) (addr v : Nat), s.mem.wf →
    (addr < s.config.memSize → ∃ t, s.memWrite addr v = .ok t ∧ (t.byteAt addr).toNat = v % 256 ∧
      MemorySameBut addr s t ∧ t.rf = s.rf ∧ t.pc = s.pc ∧ t.st = s.st ∧ t.out = s.out ∧ t.config = s.config) ∧
    (s.config.memSize ≤ addr → s.memWrite addr v = .error .outOfRange)

/-- spec/42_stack.md R85: `push(v)`: `StackOverflow` at or below `STACK_LIMIT`, then `OutOfRange` past the end, else the
decremented `x[7]` and the byte `v mod 256` at it, and no other change. -/
def Obligations.PushPrimitive : Prop :=
  ∀ (s : State) (v : Nat), s.mem.wf →
    (s.sp ≤ s.config.stackLimit → push v s = .error .stackOverflow) ∧
    (s.config.stackLimit < s.sp → s.config.memSize ≤ s.sp - 1 → push v s = .error .outOfRange) ∧
    (s.config.stackLimit < s.sp → s.sp - 1 < s.config.memSize → ∃ t, push v s = .ok t ∧ t.sp + 1 = s.sp ∧
      (t.byteAt (s.sp - 1)).toNat = v % 256 ∧ MemorySameBut (s.sp - 1) s t ∧ RegsSameBut [spReg] s t ∧ t.fl = s.fl ∧
      t.pc = s.pc ∧ t.st = s.st ∧ t.out = s.out ∧ t.config = s.config)

/-- spec/42_stack.md R86: `pop()`: `StackUnderflow` at or above `SP_INIT`, else the byte at `x[7]`, the incremented `x[7]`
without a wrap, and no other change: the cell keeps its value, and nothing but the current `x[7]` decides. -/
def Obligations.PopPrimitive : Prop :=
  ∀ s : State, s.config.wf →
    (s.config.memSize - 1 ≤ s.sp → pop s = .error .stackUnderflow) ∧
    (s.sp < s.config.memSize - 1 → ∃ t, pop s = .ok (s.byteAt s.sp, t) ∧ t.sp = s.sp + 1 ∧ MemorySame s t ∧
      RegsSameBut [spReg] s t ∧ t.fl = s.fl ∧ t.pc = s.pc ∧ t.st = s.st ∧ t.out = s.out ∧ t.config = s.config)

/-- spec/43_control_flow.md R90: `call(r, t)` pushes `r` and hands `t` to the multiplexer, or raises what the push raised,
with nothing changed; R91: `ret()` pops and returns the address. -/
def Obligations.CallAndRetPrimitives : Prop :=
  (∀ (s t : State) (r : Nat) (target : Byte), push r s = .ok t → call r target s = .ok (t, some target)) ∧
  (∀ (s : State) (r : Nat) (target : Byte) (reason : FaultReason), push r s = .error reason →
    call r target s = .error reason) ∧
  (∀ (s t : State) (v : Byte), pop s = .ok (v, t) → ret s = .ok (t, some v)) ∧
  (∀ (s : State) (reason : FaultReason), pop s = .error reason → ret s = .error reason)

/-- spec/42_stack.md R89, the stack round-trip law (the spec marks it as derived from R85 and R86): `k` pushes that succeed from `x[7] = s`, then whatever leaves `x[7]` and
the pushed cells as they are, then `k` pops: the pops succeed, give the values back in reverse order, and leave
`x[7] = s`. -/
def Obligations.StackRoundTrip : Prop :=
  ∀ (s t u : State) (vs : List Byte), s.config.wf → s.mem.wf → s.sp ≤ s.config.spInit → pushAll vs s = .ok t →
    u.config = s.config → u.sp = t.sp → (∀ a, t.sp ≤ a → a < s.sp → u.byteAt a = t.byteAt a) →
    t.sp + vs.length = s.sp ∧ (vs ≠ [] → s.config.stackLimit ≤ t.sp) ∧
    ∃ w, popMany vs.length u = .ok (vs.reverse, w) ∧ w.sp = s.sp

/-- spec/43_control_flow.md R98, the call and return law (the spec marks it as derived from R92, R93 and R89): after a CALL at `p <= 253` that did not fault, with `x[7]` and the
cell at it as the CALL left them, RET sets `pc = p + 2` and brings `x[7]` back. The premise `x[7] <= SP_INIT` is
the model's reading (DEDUCED, notes/assumptions/11.md): it holds of every state at `N` = 256, and a smaller core underflows
where `x[7] = N`. -/
def Obligations.CallThenReturn : Prop :=
  ∀ (s t u : State) (ra : Byte), s.config.wf → s.mem.wf → s.st = .running → s.pc ≤ 253 → s.sp ≤ s.config.spInit →
    exec (.call ra) s = .next t → t.st = .running →
    u.config = t.config → u.sp = t.sp → u.byteAt t.sp = t.byteAt t.sp →
    ∃ v, exec .ret u = .next v ∧ v.pc = s.pc + 2 ∧ v.sp = s.sp ∧ v.st = u.st

/-- What spec/42_stack.md R85 says `STACK_LIMIT` is for: "no push can write below address `len`", and so no step of any kind
changes a byte below `STACK_LIMIT` (R30: only PUSH and CALL store). -/
def Obligations.StackLimitProtectsImage : Prop :=
  ∀ s t : State, s.mem.wf → step s = .next t → ∀ a, a < s.config.stackLimit → t.byteAt a = s.byteAt a

/-! ### Encoding and decoding -/

/-- spec/30_encoding.md R51 with the table of R50: the Decoder of the default core answers exactly these fifteen shapes and
rejects every other byte as an illegal opcode. -/
def Obligations.DecoderMatchesAllEightBits : Prop :=
  let rows : List (Byte × Shape) :=
    [(0x01, ⟨.hlt, 0, false, false⟩), (0x11, ⟨.ret, 0, false, true⟩), (0x45, ⟨.push, 1, false, false⟩),
     (0x46, ⟨.pop, 1, false, false⟩), (0x47, ⟨.prn, 1, false, false⟩), (0x50, ⟨.call, 1, false, true⟩),
     (0x54, ⟨.jmp, 1, false, true⟩), (0x55, ⟨.jeq, 1, false, true⟩), (0x56, ⟨.jne, 1, false, true⟩),
     (0x65, ⟨.inc, 1, true, false⟩), (0x66, ⟨.dec, 1, true, false⟩), (0x82, ⟨.ldi, 2, false, false⟩),
     (0xA0, ⟨.add, 2, true, false⟩), (0xA2, ⟨.mul, 2, true, false⟩), (0xA7, ⟨.cmp, 2, true, false⟩)]
  (∀ op shape, decodeShape Config.ls8 op = .ok shape ↔ (op, shape) ∈ rows) ∧
  (∀ op, op ∉ rows.map Prod.fst → decodeShape Config.ls8 op = .error (.illegalOpcode op))

/-- spec/30_encoding.md R52, spec/60_exceptions.md R108: in a running core, an opcode byte outside the fifteen faults with
`IllegalOpcode` at decode, wherever in Memory it stands, so also where its operand bytes would be past the end. There are
241 such bytes, 0x00 and 0xFF and all with bits 7:6 both set among them. -/
def Obligations.IllegalOpcodeBeforeOperands : Prop :=
  let legal : List Byte :=
    [0x01, 0x11, 0x45, 0x46, 0x47, 0x50, 0x54, 0x55, 0x56, 0x65, 0x66, 0x82, 0xA0, 0xA2, 0xA7]
  (∀ s : State, s.st = .running → s.pc < s.config.memSize → s.byteAt s.pc ∉ legal →
    step s = .next (s.takeFault .illegalOpcode)) ∧
  ((List.range 256).filter (fun n => BitVec.ofNat 8 n ∉ legal)).length = 241 ∧
  (0x00 : Byte) ∉ legal ∧ (0xFF : Byte) ∉ legal ∧ ∀ op : Byte, 192 ≤ op.toNat → op ∉ legal

/-- spec/92_eei_decisions.md D7 (the parameter `INCDEC`): in a core built without INC and DEC, their bytes are illegal
opcodes. -/
def Obligations.IncDecBytesIllegalWhenAbsent : Prop :=
  ∀ s : State, s.st = .running → s.config.incDec = false → s.pc < s.config.memSize →
    (s.byteAt s.pc = 0x65 ∨ s.byteAt s.pc = 0x66) → step s = .next (s.takeFault .illegalOpcode)

/-- spec/30_encoding.md R45: the first byte of an instruction carries in its top two bits the number of operand bytes that
follow, and an instruction is one to three bytes long. -/
def Obligations.LengthFromTopTwoBits : Prop :=
  ∀ i : Instr, ∃ op rest, encode i = op :: rest ∧ rest.length = (op.extractLsb 7 6).toNat ∧ rest.length ≤ 2

/-- Decode and encode agree, every operand at every value: in a core that has the instruction, the bytes of its encoding
decode to it and leave the bytes after them. (spec/30_encoding.md R47, R48, R49.) -/
def Obligations.DecodeOfEncode : Prop :=
  ∀ (c : Config) (i : Instr) (rest : List Byte), i.inTable c = true → decode c (encode i ++ rest) = .ok (i, rest)

/-- Encode and decode agree: bytes that decode are the encoding of what they decode to, followed by the rest; so no two byte
sequences select the same instruction. (spec/30_encoding.md R51: "no two bytes select the same instruction".) -/
def Obligations.EncodeOfDecode : Prop :=
  ∀ (c : Config) (bytes rest : List Byte) (i : Instr), decode c bytes = .ok (i, rest) →
    bytes = encode i ++ rest ∧ i.inTable c = true

/-- A few words written out from the `encoding` column of spec/opcode_table.json, one of each family: ADD r1, r2; INC r3;
CMP r7, r0; PUSH r7; POP r1; CALL r2; RET; JMP r6; JEQ r5; JNE r4; LDI r3, 0xFE; PRN r1; HLT; and two bytes that are no
opcode. -/
def Obligations.WrittenOutWordsDecode : Prop :=
  decodeTableWord 24 0b000000100000000110100000 = some (.add 1 2) ∧
  decodeTableWord 16 0b0000001101100101 = some (.inc 3) ∧
  decodeTableWord 24 0b000000000000011110100111 = some (.cmp 7 0) ∧
  decodeTableWord 16 0b0000011101000101 = some (.push 7) ∧
  decodeTableWord 16 0b0000000101000110 = some (.pop 1) ∧
  decodeTableWord 16 0b0000001001010000 = some (.call 2) ∧
  decodeTableWord 8 0b00010001 = some .ret ∧
  decodeTableWord 16 0b0000011001010100 = some (.jmp 6) ∧
  decodeTableWord 16 0b0000010101010101 = some (.jeq 5) ∧
  decodeTableWord 16 0b0000010001010110 = some (.jne 4) ∧
  decodeTableWord 24 0b111111100000001110000010 = some (.ldi 3 0xFE) ∧
  decodeTableWord 16 0b0000000101000111 = some (.prn 1) ∧
  decodeTableWord 8 0b00000001 = some .hlt ∧
  decodeTableWord 8 0b00000000 = none ∧
  decodeTableWord 8 0b11111111 = none

/-! ### The Step -/

/-- A step runs the decoded instruction (spec/40_engine_cycle.md R61, R69): where the bytes at `pc` decode to `i`, a step of
a running machine is `exec i`, and a step of a ready machine is `exec i` in the machine started. Nothing is added around
`exec`: the meaning moves `pc` itself. -/
def Obligations.StepRunsDecodedInstruction : Prop :=
  ∀ (s : State) (i : Instr) (rest : List Byte), decode s.config s.codeBytes = .ok (i, rest) →
    (s.st = .running → step s = exec i s) ∧ (s.st = .ready → step s = exec i { s with st := .running })

/-- The engine's fetch, byte by byte (spec/40_engine_cycle.md R62 to R64), is the decoding of the bytes at `pc` that are
inside Memory, with a missing byte read as `OutOfRange`. -/
def Obligations.FetchAgreesWithDecode : Prop :=
  ∀ s : State, fetch s =
    match decode s.config s.codeBytes with
    | .ok (i, _) => .ok i
    | .error (.illegalOpcode _) => .error .illegalOpcode
    | .error .missingOpcode => .error .outOfRange
    | .error .missingOperand => .error .outOfRange

/-- The model's placing of a table word (notes/assumptions/2.md): the very next step runs the instruction the word decodes
to, in a state that differs from the given one in memory and in a running engine only. -/
def Obligations.PlacedWordIsRunNext : Prop :=
  ∀ (s : State) (nbits w : Nat) (i : Instr), s.config = Config.ls8 → s.mem.wf → s.pc + 3 ≤ 256 →
    decodeTableWord nbits w = some i →
    ∃ m, s.withFetchWord nbits w = { s with mem := m, st := (s.withFetchWord nbits w).st } ∧
      step (s.withFetchWord nbits w) = exec i { s with mem := m, st := .running }

/-- spec/40_engine_cycle.md R60, row by row: reset from anywhere; load in Ready; the first `tick()` or `run()`; a Step that
completes; HLT; a fault; and that a terminal state is left by nothing but reset. -/
def Obligations.EngineStateMoves : Prop :=
  (∀ s : State, s.hostReset = State.construct s.config ∧ s.hostReset.st = .ready) ∧
  (∀ (s t : State) (image : List Byte), s.st = .ready → s.loadImage image = some t → t.st = .ready) ∧
  (∀ s : State, s.st = .ready → step s = step { s with st := .running } ∧
    ∀ fuel, run fuel s = run fuel { s with st := .running }) ∧
  (∀ s t : State, s.st = .running → step s = .next t →
    (t.st = .running ∨ t.st = .halted ∨ ∃ reason, t.st = .faulted reason) ∧
    (t.st = .halted ↔ fetch s = .ok .hlt)) ∧
  (∀ s : State, s.st.terminal = true → step s = .next s ∧ (∀ fuel, run fuel s = .next s) ∧
    ∀ image t, s.loadImage image = some t → t = s)

/-- spec/40_engine_cycle.md R67, spec/60_exceptions.md R114: a step that raises a reason changes the engine state and nothing
else: memory, registers, `pc`, flags and output are those before the step. -/
def Obligations.FaultsArePrecise : Prop :=
  ∀ (s t : State) (reason : FaultReason), (s.st = .running ∨ s.st = .ready) → step s = .next t →
    t.st = .faulted reason → t = { s with st := .faulted reason }

/-- spec/60_exceptions.md R113: which fault a step of a running machine reports, in the order of the rule, and that it
reports none in the remaining cases. -/
def Obligations.FaultPriority : Prop :=
  ∀ s : State, s.st = .running →
    (s.config.memSize ≤ s.pc → step s = .next (s.takeFault .outOfRange)) ∧
    (s.pc < s.config.memSize → (∀ shape, decodeShape s.config (s.byteAt s.pc) ≠ .ok shape) →
      step s = .next (s.takeFault .illegalOpcode)) ∧
    (∀ shape, s.pc < s.config.memSize → decodeShape s.config (s.byteAt s.pc) = .ok shape →
      s.config.memSize ≤ s.pc + shape.nops → step s = .next (s.takeFault .outOfRange)) ∧
    (∀ i rest, decode s.config s.codeBytes = .ok (i, rest) →
      ((∃ r ∈ i.registerOperands, 7 < r.toNat) → step s = .next (s.takeFault .invalidRegister)) ∧
      ((∀ r ∈ i.registerOperands, r.toNat ≤ 7) →
        (i.mnemonic = .push ∨ i.mnemonic = .call →
          (s.sp ≤ s.config.stackLimit → step s = .next (s.takeFault .stackOverflow)) ∧
          (s.config.stackLimit < s.sp → s.config.memSize ≤ s.sp - 1 → step s = .next (s.takeFault .outOfRange)) ∧
          (s.config.stackLimit < s.sp → s.sp - 1 < s.config.memSize → ∃ t, step s = .next t ∧ t.st = .running)) ∧
        (i.mnemonic = .pop ∨ i.mnemonic = .ret →
          (s.config.spInit ≤ s.sp → step s = .next (s.takeFault .stackUnderflow)) ∧
          (s.sp < s.config.spInit → ∃ t, step s = .next t ∧ t.st = .running)) ∧
        (i.mnemonic ∉ [Mnemonic.push, .call, .pop, .ret] →
          ∃ t, step s = .next t ∧ (t.st = .running ∨ t.st = .halted))))

/-- spec/10_state.md R17, row by row: how a step of a running machine leaves `pc`. A step that faults leaves it unchanged;
otherwise by the instruction. -/
def Obligations.ProgramCounterAfterStep : Prop :=
  ∀ s t : State, s.st = .running → step s = .next t →
    (∀ reason, t.st = .faulted reason → t.pc = s.pc) ∧
    ((∀ reason, t.st ≠ .faulted reason) → ∀ i rest, decode s.config s.codeBytes = .ok (i, rest) →
      match i with
      | .ldi _ _ => t.pc = s.pc + 3
      | .add _ _ => t.pc = s.pc + 3
      | .mul _ _ => t.pc = s.pc + 3
      | .cmp _ _ => t.pc = s.pc + 3
      | .prn _ => t.pc = s.pc + 2
      | .push _ => t.pc = s.pc + 2
      | .pop _ => t.pc = s.pc + 2
      | .inc _ => t.pc = s.pc + 2
      | .dec _ => t.pc = s.pc + 2
      | .jmp ra => ∀ a, Names ra a → t.pc = (s.reg a).toNat
      | .jeq ra => ∀ a, Names ra a → t.pc = if s.fl.getLsbD 0 then (s.reg a).toNat else s.pc + 2
      | .jne ra => ∀ a, Names ra a → t.pc = if s.fl.getLsbD 0 then s.pc + 2 else (s.reg a).toNat
      | .call ra => (∀ a, Names ra a → t.pc = (s.reg a).toNat) ∧
          (s.mem.wf → (t.byteAt s.pushAddr).toNat = (s.pc + 2) % 256)
      | .ret => t.pc = (s.byteAt s.sp).toNat
      | .hlt => t.pc = s.pc)

/-- A step is always enabled (spec/93_implementation_defined.md U22), and in every state it answers a next state: no step ends
in an outcome other than a state of the machine. -/
def Obligations.StepAlwaysAnswers : Prop :=
  ∀ s : State, (∃ t, step s = .next t) ∧ ∀ i : Instr, ∃ t, exec i s = .next t

/-- spec/10_state.md R19, its first sentence and its invariant: `FL` is written by CMP only, and after a CMP exactly one of
E, G and L is set and bits 7:3 are 0. -/
def Obligations.FlagsWrittenByCompareOnly : Prop :=
  (∀ s t : State, step s = .next t → t.fl ≠ s.fl →
    ∃ ra rb rest, decode s.config s.codeBytes = .ok (.cmp ra rb, rest)) ∧
  (∀ (s t : State) (ra rb : Byte) (a b : Fin 8), Names ra a → Names rb b → exec (.cmp ra rb) s = .next t →
    (t.flagEqual.toNat + t.flagGreater.toNat + t.flagLess.toNat = 1) ∧ ∀ k, 3 ≤ k → t.fl.getLsbD k = false)

/-- spec/10_state.md R19: G and L are "read by no instruction" (the spec marks that as derived). Two machines that differ only in `FL.G`, `FL.L` and the unused
bits of `FL` go on, step by step, differing only there. -/
def Obligations.UnreadFlagsNeverMatter : Prop :=
  ∀ s u t : State, SameButUnreadFlags s u → step s = .next t → ∃ v, step u = .next v ∧ SameButUnreadFlags t v

/-- spec/20_memory.md R30, R35: a step changes a byte of memory only as the store of a PUSH or a CALL, and only the byte at
`x[7] - 1`. -/
def Obligations.MemoryWrittenByPushAndCallOnly : Prop :=
  ∀ (s t : State) (a : Nat), s.mem.wf → step s = .next t → t.byteAt a ≠ s.byteAt a →
    a + 1 = s.sp ∧ ∃ ra rest, decode s.config s.codeBytes = .ok (.push ra, rest) ∨
      decode s.config s.codeBytes = .ok (.call ra, rest)

/-- spec/10_state.md R21, spec/44_data_io_system.md R103: `OUT` grows by PRN only, by the one value of its register, and
nothing emitted is ever taken back. -/
def Obligations.OutputGrowsByPrnOnly : Prop :=
  ∀ s t : State, step s = .next t →
    t.out = s.out ∨ ∃ ra a rest, decode s.config s.codeBytes = .ok (.prn ra, rest) ∧ Names ra a ∧
      t.out = s.out ++ [s.reg a]

/-- spec/10_state.md R21: "`OUT` is never read by the core". With another stream in its place, a step does the same and
appends the same. -/
def Obligations.OutputIsNeverRead : Prop :=
  ∀ (s t : State) (o : List Byte), step s = .next t → ∃ emitted, t.out = s.out ++ emitted ∧
    step { s with out := o } = .next { t with out := o ++ emitted }

/-- spec/41_alu.md R81 (whose unreachability the spec marks as derived from R51 and R65): any tag outside the five fails with `UnsupportedOperation`, and no step of a ready or running machine
ends in that fault. -/
def Obligations.UnsupportedOperationUnreachable : Prop :=
  (∀ (tag : Mnemonic) (a b : Byte) (rf : RegisterFile), tag ∉ [Mnemonic.add, .mul, .inc, .dec, .cmp] →
    alu tag a b rf = .error .unsupportedOperation) ∧
  (∀ s t : State, (s.st = .running ∨ s.st = .ready) → step s = .next t → t.st ≠ .faulted .unsupportedOperation)

/-- A JMP to its own address loops for ever, which is neither a fault nor a halt (spec/40_engine_cycle.md R68,
spec/43_control_flow.md R94): the loop of `run()` comes back to the same state, however long it runs. -/
def Obligations.SelfJumpLoopsForever : Prop :=
  ∀ (s : State) (ra : Byte) (a : Fin 8), s.st = .running → s.pc + 1 < s.config.memSize → s.byteAt s.pc = 0x54 →
    s.byteAt (s.pc + 1) = ra → Names ra a → (s.reg a).toNat = s.pc → ∀ fuel, runLoop fuel s = .next s

/-! ### Reset, the invariant and the host -/

/-- spec/10_state.md R26: every piece of state after reset. -/
def Obligations.ResetValues : Prop :=
  (∀ a, State.reset.byteAt a = 0x00) ∧ (∀ i, i ≠ spReg → State.reset.reg i = 0x00) ∧ State.reset.reg spReg = 0xFF ∧
  State.reset.pc = 0 ∧ State.reset.fl = 0x00 ∧ State.reset.st = .ready ∧ State.reset.out = []

/-- The invariant holds of every core at its construction, and so at reset. Its parts that no rule states are the model's:
the canonical list form of memory is notes/assumptions/9.md (DESIGN CHOICE), and `pc` at most 256 in a core with a smaller
`N` is notes/assumptions/8.md (DEDUCED). -/
def Obligations.InvariantAtReset : Prop := (∀ c : Config, c.wf → (State.construct c).Inv) ∧ State.reset.Inv

/-- Every step keeps the invariant: the memory's bounds (spec/10_state.md R22) and its canonical list form, which is the
model's choice and no rule of the spec (DESIGN CHOICE, notes/assumptions/9.md); `pc` at most 256 (R16; for a core with a
smaller `N` the model's reading, DEDUCED, notes/assumptions/8.md); `FL` one of its four values (R18); and it never changes a
construction parameter (R24). -/
def Obligations.StepKeepsInvariant : Prop :=
  ∀ s t : State, s.Inv → step s = .next t → t.Inv ∧ t.config = s.config

/-- What the host can do keeps the invariant too: reset, one loader write, an image. It is the invariant of
`Obligations.StepKeepsInvariant`, of which the canonical list form of memory is the model's choice (DESIGN CHOICE,
notes/assumptions/9.md) and `pc` at most 256 in a core with a smaller `N` the model's reading (DEDUCED,
notes/assumptions/8.md). That a loader write past the end has no effect is notes/assumptions/15.md (DESIGN CHOICE). -/
def Obligations.HostOperationsKeepInvariant : Prop :=
  ∀ s : State, s.Inv → s.hostReset.Inv ∧ (∀ a b, (s.loadByte a b).Inv) ∧
    ∀ image t, s.loadImage image = some t → t.Inv

/-- spec/20_memory.md R44: in Ready, an image that fits lands at `0 .. len - 1` and changes nothing else; a longer one is
refused whole; outside Ready nothing is written. -/
def Obligations.LoadImagePlacesBytes : Prop :=
  ∀ (s : State) (image : List Byte), s.mem.wf →
    (s.config.memSize < image.length → s.loadImage image = none) ∧
    (image.length ≤ s.config.memSize → s.st = .ready → ∃ t, s.loadImage image = some t ∧
      (∀ k b, image[k]? = some b → t.byteAt k = b) ∧ (∀ a, image.length ≤ a → t.byteAt a = s.byteAt a) ∧
      t.rf = s.rf ∧ t.pc = s.pc ∧ t.st = s.st ∧ t.out = s.out ∧ t.config = s.config) ∧
    (image.length ≤ s.config.memSize → s.st ≠ .ready → s.loadImage image = some s)

/-- spec/10_state.md R27: the snapshot is `(pc, M[pc], M[pc+1], M[pc+2], x[0], .., x[7])`, in any engine state, with a byte
at or past `N` absent. (It is a function of the state that answers no state, so it changes none.) -/
def Obligations.SnapshotShowsPcBytesRegisters : Prop :=
  ∀ s : State, s.snapshot.pc = s.pc ∧ (∀ i : Fin 8, s.snapshot.x[i] = s.reg i) ∧
    ∀ k b, (k, b) ∈ [(0, s.snapshot.byte0), (1, s.snapshot.byte1), (2, s.snapshot.byte2)] →
      (s.pc + k < s.config.memSize → b = some (s.byteAt (s.pc + k))) ∧ (s.config.memSize ≤ s.pc + k → b = none)

/-- spec/40_engine_cycle.md R69: a sequence of `tick()` calls and one `run()` reach the same states in the same order: a run
bounded by any positive number of Steps ends where that many ticks end. The bound is the model's choice (DESIGN CHOICE,
notes/assumptions/12.md): the spec's `run()` (R68) has none. -/
def Obligations.RunIsRepeatedTick : Prop :=
  ∀ (k : Nat) (s : State), run (k + 1) s = ticks (k + 1) s
end

