-- ==== Sys2Proof/Laws/Memory.lean ====
section
/-!
SUPPORT. Memory: a read after a write, and the canonical form, which every memory operation keeps and which makes equal
memories equal data.
-/

namespace Sys2Proof.Machine

@[simp] theorem Memory.byteAt_nil (a : Nat) : Memory.byteAt [] a = Memory.unlisted := rfl

theorem Memory.byteAt_cons (k : Nat) (v : Byte) (m : Memory) (a : Nat) :
    Memory.byteAt ((k, v) :: m) a = if a = k then v else Memory.byteAt m a := rfl

/-- An address that no cell lists reads as `unlisted`. -/
theorem Memory.byteAt_of_not_listed {m : Memory} {a : Nat} (h : ∀ p ∈ m, p.1 ≠ a) :
    Memory.byteAt m a = Memory.unlisted := by
  induction m with
  | nil => rfl
  | cons p m ih =>
    have hp : a ≠ p.1 := fun e => h p List.mem_cons_self e.symm
    simp only [Memory.byteAt, hp, if_false]
    exact ih fun q hq => h q (List.mem_cons_of_mem _ hq)

/-- In a canonical memory, a listed cell is what its address reads as. -/
theorem Memory.byteAt_of_mem {m : Memory} (h : Memory.wf m) {p : Host.Cell} (hp : p ∈ m) : Memory.byteAt m p.1 = p.2 := by
  induction m with
  | nil => cases hp
  | cons q m ih =>
    obtain ⟨hq, hm⟩ := List.pairwise_cons.mp h.1
    rcases List.mem_cons.mp hp with rfl | hp
    · simp [Memory.byteAt]
    · have hne : p.1 ≠ q.1 := (hq p hp).ne'
      simp only [Memory.byteAt, hne, if_false]
      exact ih ⟨hm, fun r hr => h.2 r (List.mem_cons_of_mem _ hr)⟩ hp

/-- Every cell after the first of a canonical memory lies above it, so the first address reads as nothing there. -/
theorem Memory.byteAt_tail {k : Nat} {v : Byte} {m : Memory} (h : Memory.wf ((k, v) :: m)) {a : Nat} (ha : a ≤ k) :
    Memory.byteAt m a = Memory.unlisted :=
  Memory.byteAt_of_not_listed fun p hp => by
    have := (List.pairwise_cons.mp h.1).1 p hp
    simp only at this
    omega

theorem Memory.wf_tail {p : Host.Cell} {m : Memory} (h : Memory.wf (p :: m)) : Memory.wf m :=
  ⟨(List.pairwise_cons.mp h.1).2, fun q hq => h.2 q (List.mem_cons_of_mem _ hq)⟩

theorem Memory.byteAt_front (a : Nat) (b : Byte) (m : Memory) (c : Nat) (h : Memory.byteAt m a = Memory.unlisted) :
    Memory.byteAt (Memory.cons a b m) c = if c = a then b else Memory.byteAt m c := by
  unfold Memory.cons
  split
  next hb =>
    split
    next hc => rw [hc, hb, h]
    next => rfl
  next => rfl

/-- A read after a write (spec/20_memory.md R36): the written byte at the address, every other byte as it was. -/
theorem Memory.byteAt_setByte {m : Memory} (h : Memory.wf m) (a : Nat) (b : Byte) (c : Nat) :
    Memory.byteAt (Memory.setByte m a b) c = if c = a then b else Memory.byteAt m c := by
  induction m with
  | nil => exact Memory.byteAt_front a b [] c rfl
  | cons p m ih =>
    obtain ⟨k, v⟩ := p
    simp only [Memory.setByte]
    split
    next hlt =>
      refine Memory.byteAt_front a b _ c ?_
      rw [Memory.byteAt_cons, if_neg (by omega), Memory.byteAt_tail h (by omega)]
    next hlt =>
      split
      next heq =>
        subst heq
        rw [Memory.byteAt_front a b m c (Memory.byteAt_tail h (le_refl a)), Memory.byteAt_cons]
        split <;> simp_all
      next hne =>
        rw [Memory.byteAt_cons, Memory.byteAt_cons, ih (Memory.wf_tail h)]
        by_cases hc : c = k
        · have : c ≠ a := by omega
          simp [hc]
          omega
        · simp [hc]

theorem Memory.mem_cons {a : Nat} {b : Byte} {m : Memory} {p : Host.Cell} (h : p ∈ Memory.cons a b m) :
    p = (a, b) ∧ b ≠ Memory.unlisted ∨ p ∈ m := by
  unfold Memory.cons at h
  split at h
  next => exact .inr h
  next hb => exact (List.mem_cons.mp h).imp (fun e => ⟨e, hb⟩) id

/-- Whatever a write leaves listed is the written cell or was listed before. -/
theorem Memory.mem_setByte {m : Memory} {a : Nat} {b : Byte} {p : Host.Cell} (h : p ∈ Memory.setByte m a b) :
    p = (a, b) ∧ b ≠ Memory.unlisted ∨ p ∈ m := by
  induction m with
  | nil => exact Memory.mem_cons h
  | cons q m ih =>
    obtain ⟨k, v⟩ := q
    simp only [Memory.setByte] at h
    split at h
    next => exact Memory.mem_cons h
    next =>
      split at h
      next => exact (Memory.mem_cons h).imp id (List.mem_cons_of_mem _)
      next =>
        rcases List.mem_cons.mp h with rfl | h
        · exact .inr List.mem_cons_self
        · exact (ih h).imp id (List.mem_cons_of_mem _)

theorem Memory.wf_cons {m : Memory} (h : Memory.wf m) (a : Nat) (b : Byte) (ha : ∀ p ∈ m, a < p.1) :
    Memory.wf (Memory.cons a b m) := by
  unfold Memory.cons
  split
  next => exact h
  next hb =>
    refine ⟨List.pairwise_cons.mpr ⟨ha, h.1⟩, fun p hp => ?_⟩
    rcases List.mem_cons.mp hp with rfl | hp
    · exact hb
    · exact h.2 p hp

/-- A write keeps the canonical form. -/
theorem Memory.wf_setByte {m : Memory} (h : Memory.wf m) (a : Nat) (b : Byte) : Memory.wf (Memory.setByte m a b) := by
  induction m with
  | nil => exact Memory.wf_cons h a b (by simp)
  | cons p m ih =>
    obtain ⟨k, v⟩ := p
    have hk := (List.pairwise_cons.mp h.1).1
    simp only [Memory.setByte]
    split
    next hlt =>
      refine Memory.wf_cons h a b fun q hq => ?_
      rcases List.mem_cons.mp hq with rfl | hq
      · exact hlt
      · exact hlt.trans (hk q hq)
    next hlt =>
      split
      next heq => exact Memory.wf_cons (Memory.wf_tail h) a b fun q hq => heq ▸ hk q hq
      next hne =>
        have hm := ih (Memory.wf_tail h)
        refine ⟨List.pairwise_cons.mpr ⟨fun q hq => ?_, hm.1⟩, fun q hq => ?_⟩
        · rcases Memory.mem_setByte hq with ⟨rfl, _⟩ | hq
          · simp only
            omega
          · exact hk q hq
        · rcases List.mem_cons.mp hq with rfl | hq
          · exact h.2 _ List.mem_cons_self
          · exact hm.2 q hq

/-- A write inside the address space keeps the listed addresses inside it. -/
theorem Memory.below_setByte {n : Nat} {m : Memory} (h : Memory.below n m) {a : Nat} (ha : a < n) (b : Byte) :
    Memory.below n (Memory.setByte m a b) := fun p hp => by
  rcases Memory.mem_setByte hp with ⟨rfl, _⟩ | hp
  · exact ha
  · exact h p hp

/-- Two canonical memories that read the same everywhere are the same data. -/
theorem Memory.ext {m m' : Memory} (h : Memory.wf m) (h' : Memory.wf m') (e : ∀ a, Memory.byteAt m a = Memory.byteAt m' a) :
    m = m' := by
  have sub : ∀ {m m' : Memory}, Memory.wf m → Memory.wf m' → (∀ a, Memory.byteAt m a = Memory.byteAt m' a) → m ⊆ m' := by
    intro m m' h h' e p hp
    have hr := Memory.byteAt_of_mem h hp
    by_contra hn
    have hl : ∃ q ∈ m', q.1 = p.1 := by
      by_contra hall
      push Not at hall
      exact h.2 p hp (by rw [← hr, e, Memory.byteAt_of_not_listed hall])
    obtain ⟨q, hq, hqp⟩ := hl
    refine hn ?_
    have hq2 := Memory.byteAt_of_mem h' hq
    rw [hqp, ← e, hr] at hq2
    rwa [show p = q from Prod.ext hqp.symm hq2]
  have nodup : ∀ {m : Memory}, Memory.wf m → m.Nodup := fun h => h.1.imp fun {p q} hpq e => by
    rw [e] at hpq
    exact (lt_irrefl _) hpq
  have perm : List.Perm m m' :=
    (List.perm_ext_iff_of_nodup (nodup h) (nodup h')).mpr fun p => ⟨fun hp => sub h h' e hp, fun hp => sub h' h (fun a => (e a).symm) hp⟩
  exact List.Perm.eq_of_pairwise (le := fun p q => p.1 < q.1) (fun p q _ _ hpq hqp => absurd (hpq.trans hqp) (lt_irrefl _)) h.1 h'.1 perm

/-- The reset memory has the canonical form. -/
theorem reset_memory_wf : Memory.wf State.reset.mem := by decide

end Sys2Proof.Machine
end

