-- ==== Sys2Proof/Laws/State.lean ====
section
/-!
SUPPORT. One lemma per field, and per accessor, per update of the state: each is true by rfl, so that no later proof unfolds
a record update.
-/

namespace Sys2Proof.Machine

/-! ### setByte -/

@[simp] theorem setByte_config (s : State) (a : Nat) (b : Byte) : (s.setByte a b).config = s.config := rfl
@[simp] theorem setByte_mem (s : State) (a : Nat) (b : Byte) : (s.setByte a b).mem = s.mem.setByte a b := rfl
@[simp] theorem setByte_rf (s : State) (a : Nat) (b : Byte) : (s.setByte a b).rf = s.rf := rfl
@[simp] theorem setByte_pc (s : State) (a : Nat) (b : Byte) : (s.setByte a b).pc = s.pc := rfl
@[simp] theorem setByte_st (s : State) (a : Nat) (b : Byte) : (s.setByte a b).st = s.st := rfl
@[simp] theorem setByte_out (s : State) (a : Nat) (b : Byte) : (s.setByte a b).out = s.out := rfl
@[simp] theorem setByte_reg (s : State) (a : Nat) (b : Byte) (k : Fin 8) : (s.setByte a b).reg k = s.reg k := rfl
@[simp] theorem setByte_fl (s : State) (a : Nat) (b : Byte) : (s.setByte a b).fl = s.fl := rfl
@[simp] theorem setByte_sp (s : State) (a : Nat) (b : Byte) : (s.setByte a b).sp = s.sp := rfl
@[simp] theorem setByte_flagEqual (s : State) (a : Nat) (b : Byte) : (s.setByte a b).flagEqual = s.flagEqual := rfl

/-! ### setReg -/

@[simp] theorem setReg_config (s : State) (i : Fin 8) (v : Int) : (s.setReg i v).config = s.config := rfl
@[simp] theorem setReg_mem (s : State) (i : Fin 8) (v : Int) : (s.setReg i v).mem = s.mem := rfl
@[simp] theorem setReg_rf (s : State) (i : Fin 8) (v : Int) : (s.setReg i v).rf = s.rf.write i v := rfl
@[simp] theorem setReg_pc (s : State) (i : Fin 8) (v : Int) : (s.setReg i v).pc = s.pc := rfl
@[simp] theorem setReg_st (s : State) (i : Fin 8) (v : Int) : (s.setReg i v).st = s.st := rfl
@[simp] theorem setReg_out (s : State) (i : Fin 8) (v : Int) : (s.setReg i v).out = s.out := rfl
@[simp] theorem setReg_fl (s : State) (i : Fin 8) (v : Int) : (s.setReg i v).fl = s.fl := rfl
@[simp] theorem setReg_flagEqual (s : State) (i : Fin 8) (v : Int) : (s.setReg i v).flagEqual = s.flagEqual := rfl
@[simp] theorem setReg_byteAt (s : State) (i : Fin 8) (v : Int) (c : Nat) : (s.setReg i v).byteAt c = s.byteAt c := rfl

/-! ### setRf -/

@[simp] theorem setRf_config (s : State) (rf : RegisterFile) : (s.setRf rf).config = s.config := rfl
@[simp] theorem setRf_mem (s : State) (rf : RegisterFile) : (s.setRf rf).mem = s.mem := rfl
@[simp] theorem setRf_rf (s : State) (rf : RegisterFile) : (s.setRf rf).rf = rf := rfl
@[simp] theorem setRf_pc (s : State) (rf : RegisterFile) : (s.setRf rf).pc = s.pc := rfl
@[simp] theorem setRf_st (s : State) (rf : RegisterFile) : (s.setRf rf).st = s.st := rfl
@[simp] theorem setRf_out (s : State) (rf : RegisterFile) : (s.setRf rf).out = s.out := rfl
@[simp] theorem setRf_reg (s : State) (rf : RegisterFile) (k : Fin 8) : (s.setRf rf).reg k = rf.read k := rfl
@[simp] theorem setRf_fl (s : State) (rf : RegisterFile) : (s.setRf rf).fl = rf.fl := rfl
@[simp] theorem setRf_sp (s : State) (rf : RegisterFile) : (s.setRf rf).sp = (rf.read spReg).toNat := rfl
@[simp] theorem setRf_byteAt (s : State) (rf : RegisterFile) (c : Nat) : (s.setRf rf).byteAt c = s.byteAt c := rfl

/-! ### setPc -/

@[simp] theorem setPc_config (s : State) (p : Nat) : (s.setPc p).config = s.config := rfl
@[simp] theorem setPc_mem (s : State) (p : Nat) : (s.setPc p).mem = s.mem := rfl
@[simp] theorem setPc_rf (s : State) (p : Nat) : (s.setPc p).rf = s.rf := rfl
@[simp] theorem setPc_pc (s : State) (p : Nat) : (s.setPc p).pc = p := rfl
@[simp] theorem setPc_st (s : State) (p : Nat) : (s.setPc p).st = s.st := rfl
@[simp] theorem setPc_out (s : State) (p : Nat) : (s.setPc p).out = s.out := rfl
@[simp] theorem setPc_reg (s : State) (p : Nat) (k : Fin 8) : (s.setPc p).reg k = s.reg k := rfl
@[simp] theorem setPc_fl (s : State) (p : Nat) : (s.setPc p).fl = s.fl := rfl
@[simp] theorem setPc_sp (s : State) (p : Nat) : (s.setPc p).sp = s.sp := rfl
@[simp] theorem setPc_flagEqual (s : State) (p : Nat) : (s.setPc p).flagEqual = s.flagEqual := rfl
@[simp] theorem setPc_byteAt (s : State) (p : Nat) (c : Nat) : (s.setPc p).byteAt c = s.byteAt c := rfl

/-! ### emit -/

@[simp] theorem emit_config (s : State) (v : Byte) : (s.emit v).config = s.config := rfl
@[simp] theorem emit_mem (s : State) (v : Byte) : (s.emit v).mem = s.mem := rfl
@[simp] theorem emit_rf (s : State) (v : Byte) : (s.emit v).rf = s.rf := rfl
@[simp] theorem emit_pc (s : State) (v : Byte) : (s.emit v).pc = s.pc := rfl
@[simp] theorem emit_st (s : State) (v : Byte) : (s.emit v).st = s.st := rfl
@[simp] theorem emit_out (s : State) (v : Byte) : (s.emit v).out = s.out ++ [v] := rfl
@[simp] theorem emit_reg (s : State) (v : Byte) (k : Fin 8) : (s.emit v).reg k = s.reg k := rfl
@[simp] theorem emit_fl (s : State) (v : Byte) : (s.emit v).fl = s.fl := rfl
@[simp] theorem emit_sp (s : State) (v : Byte) : (s.emit v).sp = s.sp := rfl
@[simp] theorem emit_flagEqual (s : State) (v : Byte) : (s.emit v).flagEqual = s.flagEqual := rfl
@[simp] theorem emit_byteAt (s : State) (v : Byte) (c : Nat) : (s.emit v).byteAt c = s.byteAt c := rfl

/-! ### start -/

@[simp] theorem start_config (s : State) : (s.start).config = s.config := rfl
@[simp] theorem start_mem (s : State) : (s.start).mem = s.mem := rfl
@[simp] theorem start_rf (s : State) : (s.start).rf = s.rf := rfl
@[simp] theorem start_pc (s : State) : (s.start).pc = s.pc := rfl
@[simp] theorem start_st (s : State) : (s.start).st = .running := rfl
@[simp] theorem start_out (s : State) : (s.start).out = s.out := rfl
@[simp] theorem start_reg (s : State) (k : Fin 8) : (s.start).reg k = s.reg k := rfl
@[simp] theorem start_fl (s : State) : (s.start).fl = s.fl := rfl
@[simp] theorem start_sp (s : State) : (s.start).sp = s.sp := rfl
@[simp] theorem start_flagEqual (s : State) : (s.start).flagEqual = s.flagEqual := rfl
@[simp] theorem start_byteAt (s : State) (c : Nat) : (s.start).byteAt c = s.byteAt c := rfl

/-! ### halt -/

@[simp] theorem halt_config (s : State) : (s.halt).config = s.config := rfl
@[simp] theorem halt_mem (s : State) : (s.halt).mem = s.mem := rfl
@[simp] theorem halt_rf (s : State) : (s.halt).rf = s.rf := rfl
@[simp] theorem halt_pc (s : State) : (s.halt).pc = s.pc := rfl
@[simp] theorem halt_st (s : State) : (s.halt).st = .halted := rfl
@[simp] theorem halt_out (s : State) : (s.halt).out = s.out := rfl
@[simp] theorem halt_reg (s : State) (k : Fin 8) : (s.halt).reg k = s.reg k := rfl
@[simp] theorem halt_fl (s : State) : (s.halt).fl = s.fl := rfl
@[simp] theorem halt_sp (s : State) : (s.halt).sp = s.sp := rfl
@[simp] theorem halt_flagEqual (s : State) : (s.halt).flagEqual = s.flagEqual := rfl
@[simp] theorem halt_byteAt (s : State) (c : Nat) : (s.halt).byteAt c = s.byteAt c := rfl

/-! ### takeFault -/

@[simp] theorem takeFault_config (s : State) (r : FaultReason) : (State.takeFault r s).config = s.config := rfl
@[simp] theorem takeFault_mem (s : State) (r : FaultReason) : (State.takeFault r s).mem = s.mem := rfl
@[simp] theorem takeFault_rf (s : State) (r : FaultReason) : (State.takeFault r s).rf = s.rf := rfl
@[simp] theorem takeFault_pc (s : State) (r : FaultReason) : (State.takeFault r s).pc = s.pc := rfl
@[simp] theorem takeFault_st (s : State) (r : FaultReason) : (State.takeFault r s).st = .faulted r := rfl
@[simp] theorem takeFault_out (s : State) (r : FaultReason) : (State.takeFault r s).out = s.out := rfl
@[simp] theorem takeFault_reg (s : State) (r : FaultReason) (k : Fin 8) : (State.takeFault r s).reg k = s.reg k := rfl
@[simp] theorem takeFault_fl (s : State) (r : FaultReason) : (State.takeFault r s).fl = s.fl := rfl
@[simp] theorem takeFault_sp (s : State) (r : FaultReason) : (State.takeFault r s).sp = s.sp := rfl
@[simp] theorem takeFault_flagEqual (s : State) (r : FaultReason) : (State.takeFault r s).flagEqual = s.flagEqual := rfl
@[simp] theorem takeFault_byteAt (s : State) (r : FaultReason) (c : Nat) : (State.takeFault r s).byteAt c = s.byteAt c := rfl

/-! ### The register file -/

@[simp] theorem write_fl (rf : RegisterFile) (i : Fin 8) (v : Int) : (rf.write i v).fl = rf.fl := rfl

@[simp] theorem read_write_same (rf : RegisterFile) (i : Fin 8) (v : Int) : (rf.write i v).read i = BitVec.ofInt 8 v := by
  simp [RegisterFile.read, RegisterFile.write]

theorem read_write (rf : RegisterFile) (i k : Fin 8) (v : Int) :
    (rf.write i v).read k = if k = i then BitVec.ofInt 8 v else rf.read k := by
  by_cases h : k = i
  · subst h; simp
  · have hne : i.val ≠ k.val := fun e => h (Fin.ext e.symm)
    simp [RegisterFile.read, RegisterFile.write, h, hne]

@[simp] theorem read_write_ne (rf : RegisterFile) {i k : Fin 8} (v : Int) (h : k ≠ i) :
    (rf.write i v).read k = rf.read k := by simp [read_write, h]

@[simp] theorem setReg_reg_same (s : State) (i : Fin 8) (v : Int) : (s.setReg i v).reg i = BitVec.ofInt 8 v := by
  simp [State.reg]

@[simp] theorem setReg_reg_ne (s : State) {i k : Fin 8} (v : Int) (h : k ≠ i) : (s.setReg i v).reg k = s.reg k := by
  simp [State.reg, h]

theorem setReg_reg (s : State) (i k : Fin 8) (v : Int) :
    (s.setReg i v).reg k = if k = i then BitVec.ofInt 8 v else s.reg k := by
  simp [State.reg, read_write]

/-- A register write is modulo 256 (spec/10_state.md R12), seen from a natural number. -/
theorem ofInt_natCast (n : Nat) : BitVec.ofInt 8 (n : Int) = BitVec.ofNat 8 n := by
  simp [BitVec.ofInt_natCast]

/-- Storing the number a byte stands for stores the byte. -/
@[simp] theorem ofInt_toNat (b : Byte) : BitVec.ofInt 8 (b.toNat : Int) = b := by
  simp

/-- A register value is below 256. -/
theorem reg_toNat_lt (s : State) (i : Fin 8) : (s.reg i).toNat < 256 := (s.reg i).isLt

theorem sp_lt (s : State) : s.sp < 256 := (s.reg spReg).isLt

theorem pushAddr_eq (s : State) : s.pushAddr = s.sp - 1 := rfl

theorem pushAddr_lt (s : State) : s.pushAddr < 256 := by
  have := sp_lt s
  simp only [pushAddr_eq]
  omega

end Sys2Proof.Machine
end

