-- ==== Sys2Proof/Laws/Ops.lean ====
section
/-!
SUPPORT. One lemma per shared operation that says everything the operation can do: reads and writes of memory, register
operands, the ALU, the Stack Manager, the multiplexer. Later proofs cite these and do not unfold the operations.
-/

namespace Sys2Proof.Machine

/-! ### Memory accesses -/

theorem memRead_ok {s : State} {a : Nat} (h : a < s.config.memSize) : s.memRead a = .ok (s.byteAt a) := by
  simp [State.memRead, h]

theorem memRead_error {s : State} {a : Nat} (h : s.config.memSize ≤ a) : s.memRead a = .error .outOfRange := by
  simp [State.memRead, h]

theorem memRead_eq_ok {s : State} {a : Nat} {b : Byte} :
    s.memRead a = .ok b ↔ a < s.config.memSize ∧ b = s.byteAt a := by
  by_cases h : a < s.config.memSize
  · simp [memRead_ok h, h, eq_comm]
  · simp [memRead_error (Nat.le_of_not_lt h), h]

theorem memWrite_ok {s : State} {a : Nat} (h : a < s.config.memSize) (v : Nat) :
    s.memWrite a v = .ok (s.setByte a (BitVec.ofNat 8 v)) := by
  simp [State.memWrite, h]

theorem memWrite_error {s : State} {a : Nat} (h : s.config.memSize ≤ a) (v : Nat) :
    s.memWrite a v = .error .outOfRange := by
  simp [State.memWrite, h]

theorem setByte_byteAt {s : State} (h : s.mem.wf) (a : Nat) (b : Byte) (c : Nat) :
    (s.setByte a b).byteAt c = if c = a then b else s.byteAt c := Memory.byteAt_setByte h a b c

/-! ### Register operands -/

theorem names_or_above (r : Byte) : (∃ i, Names r i) ∨ 7 < r.toNat := by
  by_cases h : r.toNat < 8
  · exact .inl ⟨⟨r.toNat, h⟩, rfl⟩
  · exact .inr (by omega)

theorem Names.not_above {r : Byte} {i : Fin 8} (h : Names r i) : ¬ 7 < r.toNat := by
  unfold Names at h
  omega

theorem Names.unique {r : Byte} {i j : Fin 8} (hi : Names r i) (hj : Names r j) : i = j :=
  Fin.ext (hi.symm.trans hj)

theorem regIndex_names {r : Byte} {i : Fin 8} (h : Names r i) : regIndex r = .ok i := by
  unfold Names at h
  simp [regIndex, h]

theorem regIndex_above {r : Byte} (h : 7 < r.toNat) : regIndex r = .error .invalidRegister := by
  simp [regIndex, show ¬ r.toNat < 8 by omega]

theorem regIndex_eq_ok {r : Byte} {i : Fin 8} : regIndex r = .ok i ↔ Names r i := by
  refine ⟨fun h => ?_, regIndex_names⟩
  rcases names_or_above r with ⟨j, hj⟩ | h7
  · rw [regIndex_names hj] at h
    cases h
    exact hj
  · rw [regIndex_above h7] at h
    cases h

/-! ### The multiplexer -/

@[simp] theorem completeStep_error (s : State) (n : Nat) (r : FaultReason) :
    completeStep s n (.error r) = .next (s.takeFault r) := rfl

@[simp] theorem completeStep_target (s t : State) (n : Nat) (b : Byte) :
    completeStep s n (.ok (t, some b)) = .next (t.setPc b.toNat) := rfl

@[simp] theorem completeStep_sequential (s t : State) (n : Nat) :
    completeStep s n (.ok (t, none)) = .next (t.setPc (s.pc + 1 + n)) := rfl

/-! ### The Stack Manager -/

theorem push_overflow {s : State} (h : s.sp ≤ s.config.stackLimit) (v : Nat) : push v s = .error .stackOverflow := by
  simp [push, h]

theorem push_outOfRange {s : State} (h : s.config.stackLimit < s.sp) (h' : s.config.memSize ≤ s.pushAddr) (v : Nat) :
    push v s = .error .outOfRange := by
  simp [push, Nat.not_le.mpr h, h']

theorem push_ok {s : State} (h : s.config.stackLimit < s.sp) (h' : s.pushAddr < s.config.memSize) (v : Nat) :
    push v s = .ok ((s.setReg spReg s.pushAddr).setByte s.pushAddr (BitVec.ofNat 8 v)) := by
  rw [push, if_neg (Nat.not_le.mpr h), if_neg (Nat.not_le.mpr h')]
  exact memWrite_ok (s := s.setReg spReg s.pushAddr) h' v

/-- Everything a push can do. -/
theorem push_eq_ok {s t : State} {v : Nat} :
    push v s = .ok t ↔ s.config.stackLimit < s.sp ∧ s.pushAddr < s.config.memSize ∧
      t = (s.setReg spReg s.pushAddr).setByte s.pushAddr (BitVec.ofNat 8 v) := by
  by_cases h : s.config.stackLimit < s.sp
  · by_cases h' : s.pushAddr < s.config.memSize
    · simp [push_ok h h', h, h', eq_comm]
    · simp [push_outOfRange h (Nat.le_of_not_lt h'), h']
  · simp [push_overflow (Nat.le_of_not_lt h), h]

theorem pop_underflow {s : State} (h : s.config.spInit ≤ s.sp) : pop s = .error .stackUnderflow := by
  simp [pop, h]

theorem pop_ok {s : State} (h : s.sp < s.config.spInit) :
    pop s = .ok (s.byteAt s.sp, s.setReg spReg ((s.sp : Int) + 1)) := by
  have hm : s.sp < s.config.memSize := lt_of_lt_of_le h (Nat.sub_le _ _)
  simp [pop, h, memRead_ok hm, bind, Except.bind, pure, Except.pure]

/-- Everything a pop can do. -/
theorem pop_eq_ok {s t : State} {v : Byte} :
    pop s = .ok (v, t) ↔ s.sp < s.config.spInit ∧ v = s.byteAt s.sp ∧ t = s.setReg spReg ((s.sp : Int) + 1) := by
  by_cases h : s.sp < s.config.spInit
  · simp [pop_ok h, h, eq_comm]
  · simp [pop_underflow (Nat.le_of_not_lt h), h]

/-- A push leaves the stack pointer at the address it stored to. -/
theorem push_sp {s t : State} {v : Nat} (h : push v s = .ok t) : t.sp = s.pushAddr := by
  obtain ⟨-, -, rfl⟩ := push_eq_ok.mp h
  have := pushAddr_lt s
  simp [State.sp]
  omega

/-- A pop that succeeds never wraps the stack pointer of a core with `N <= 256`. -/
theorem pop_sp {s t : State} {v : Byte} (hc : s.config.memSize ≤ 256) (h : pop s = .ok (v, t)) : t.sp = s.sp + 1 := by
  obtain ⟨hs, -, rfl⟩ := pop_eq_ok.mp h
  have : s.config.spInit ≤ 255 := by
    unfold Config.spInit
    omega
  rw [show ((s.sp : Int) + 1) = ((s.sp + 1 : Nat) : Int) by simp]
  simp only [State.sp, setReg_reg_same, ofInt_natCast, BitVec.toNat_ofNat]
  simp only [State.sp] at hs
  omega

/-! ### The ALU -/

/-- The Register File after an ALU operation on registers `i` and `j`. -/
theorem alu_add {a b : Byte} {i j : Fin 8} (ha : Names a i) (hb : Names b j) (rf : RegisterFile) :
    alu .add a b rf = .ok (rf.write i ((rf.read i).toNat + (rf.read j).toNat)) := by
  simp [alu, regIndex_names ha, regIndex_names hb, bind, Except.bind, pure, Except.pure]

theorem alu_mul {a b : Byte} {i j : Fin 8} (ha : Names a i) (hb : Names b j) (rf : RegisterFile) :
    alu .mul a b rf = .ok (rf.write i ((rf.read i).toNat * (rf.read j).toNat)) := by
  simp [alu, regIndex_names ha, regIndex_names hb, bind, Except.bind, pure, Except.pure]

theorem alu_inc {a : Byte} {i : Fin 8} (ha : Names a i) (b : Byte) (rf : RegisterFile) :
    alu .inc a b rf = .ok (rf.write i ((rf.read i).toNat + 1)) := by
  simp [alu, regIndex_names ha, bind, Except.bind, pure, Except.pure]

theorem alu_dec {a : Byte} {i : Fin 8} (ha : Names a i) (b : Byte) (rf : RegisterFile) :
    alu .dec a b rf = .ok (rf.write i ((rf.read i).toNat - 1)) := by
  simp [alu, regIndex_names ha, bind, Except.bind, pure, Except.pure]

theorem alu_cmp {a b : Byte} {i j : Fin 8} (ha : Names a i) (hb : Names b j) (rf : RegisterFile) :
    alu .cmp a b rf = .ok { rf with fl := compareFlags (rf.read i) (rf.read j) } := by
  simp [alu, regIndex_names ha, regIndex_names hb, bind, Except.bind, pure, Except.pure]

/-- A two-operand ALU operation with either register operand above 7 raises `InvalidRegister`. -/
theorem alu_two_above {tag : Mnemonic} (ht : tag = .add ∨ tag = .mul ∨ tag = .cmp) {a b : Byte}
    (h : 7 < a.toNat ∨ 7 < b.toNat) (rf : RegisterFile) : alu tag a b rf = .error .invalidRegister := by
  rcases names_or_above a with ⟨i, hi⟩ | ha
  · have hb : 7 < b.toNat := h.resolve_left hi.not_above
    rcases ht with rfl | rfl | rfl <;>
      simp [alu, regIndex_names hi, regIndex_above hb, bind, Except.bind]
  · rcases ht with rfl | rfl | rfl <;> simp [alu, regIndex_above ha, bind, Except.bind]

theorem alu_one_above {tag : Mnemonic} (ht : tag = .inc ∨ tag = .dec) {a b : Byte} (h : 7 < a.toNat) (rf : RegisterFile) :
    alu tag a b rf = .error .invalidRegister := by
  rcases ht with rfl | rfl <;> simp [alu, regIndex_above h, bind, Except.bind]

/-- The five tags write one register or the flags, and no more. -/
theorem compareFlags_legal (u v : Byte) : flagsLegal (compareFlags u v) := by
  unfold compareFlags flagsLegal
  split
  · exact .inr (.inl rfl)
  · split
    · exact .inr (.inr (.inl rfl))
    · exact .inr (.inr (.inr rfl))

end Sys2Proof.Machine
end

