-- ==== Sys2Proof/Laws/Exec.lean ====
section
/-!
SUPPORT. What each meaning answers, as one equation over the named updates per outcome: on register operands that name
registers, and on one above 7. Later proofs rewrite with these and do not unfold a meaning.
-/

namespace Sys2Proof.Machine

/-! ### ALU instructions -/

theorem exec_add_ok {ra rb : Byte} {a b : Fin 8} (ha : Names ra a) (hb : Names rb b) (s : State) :
    exec (.add ra rb) s = .next ((s.setRf (s.rf.write a ((s.reg a).toNat + (s.reg b).toNat))).setPc (s.pc + 3)) := by
  simp [exec, execAdd, aluExecute, alu_add ha hb, bind, Except.bind, pure, Except.pure, State.reg]

theorem exec_mul_ok {ra rb : Byte} {a b : Fin 8} (ha : Names ra a) (hb : Names rb b) (s : State) :
    exec (.mul ra rb) s = .next ((s.setRf (s.rf.write a ((s.reg a).toNat * (s.reg b).toNat))).setPc (s.pc + 3)) := by
  simp [exec, execMul, aluExecute, alu_mul ha hb, bind, Except.bind, pure, Except.pure, State.reg]

theorem exec_inc_ok {ra : Byte} {a : Fin 8} (ha : Names ra a) (s : State) :
    exec (.inc ra) s = .next ((s.setRf (s.rf.write a ((s.reg a).toNat + 1))).setPc (s.pc + 2)) := by
  simp [exec, execInc, aluExecute, alu_inc ha, bind, Except.bind, pure, Except.pure, State.reg]

theorem exec_dec_ok {ra : Byte} {a : Fin 8} (ha : Names ra a) (s : State) :
    exec (.dec ra) s = .next ((s.setRf (s.rf.write a ((s.reg a).toNat - 1))).setPc (s.pc + 2)) := by
  simp [exec, execDec, aluExecute, alu_dec ha, bind, Except.bind, pure, Except.pure, State.reg]

theorem exec_cmp_ok {ra rb : Byte} {a b : Fin 8} (ha : Names ra a) (hb : Names rb b) (s : State) :
    exec (.cmp ra rb) s =
      .next ((s.setRf { s.rf with fl := compareFlags (s.reg a) (s.reg b) }).setPc (s.pc + 3)) := by
  simp [exec, execCmp, aluExecute, alu_cmp ha hb, bind, Except.bind, pure, Except.pure, State.reg]

/-! ### Stack and control transfer -/

theorem exec_push_ok {ra : Byte} {a : Fin 8} (ha : Names ra a) {s : State} (h : s.config.stackLimit < s.sp)
    (h' : s.pushAddr < s.config.memSize) :
    exec (.push ra) s =
      .next (((s.setReg spReg s.pushAddr).setByte s.pushAddr (s.reg a)).setPc (s.pc + 2)) := by
  simp [exec, execPush, regIndex_names ha, push_ok h h', bind, Except.bind, pure, Except.pure]

theorem exec_push_overflow {ra : Byte} {a : Fin 8} (ha : Names ra a) {s : State} (h : s.sp ≤ s.config.stackLimit) :
    exec (.push ra) s = .next (s.takeFault .stackOverflow) := by
  simp [exec, execPush, regIndex_names ha, push_overflow h, bind, Except.bind]

theorem exec_push_outOfRange {ra : Byte} {a : Fin 8} (ha : Names ra a) {s : State} (h : s.config.stackLimit < s.sp)
    (h' : s.config.memSize ≤ s.pushAddr) : exec (.push ra) s = .next (s.takeFault .outOfRange) := by
  simp [exec, execPush, regIndex_names ha, push_outOfRange h h', bind, Except.bind]

theorem exec_pop_ok {ra : Byte} {a : Fin 8} (ha : Names ra a) {s : State} (h : s.sp < s.config.spInit) :
    exec (.pop ra) s =
      .next (((s.setReg spReg ((s.sp : Int) + 1)).setReg a (s.byteAt s.sp).toNat).setPc (s.pc + 2)) := by
  simp [exec, execPop, regIndex_names ha, pop_ok h, bind, Except.bind, pure, Except.pure]

theorem exec_pop_underflow {ra : Byte} {a : Fin 8} (ha : Names ra a) {s : State} (h : s.config.spInit ≤ s.sp) :
    exec (.pop ra) s = .next (s.takeFault .stackUnderflow) := by
  simp [exec, execPop, regIndex_names ha, pop_underflow h, bind, Except.bind]

theorem exec_call_ok {ra : Byte} {a : Fin 8} (ha : Names ra a) {s : State} (h : s.config.stackLimit < s.sp)
    (h' : s.pushAddr < s.config.memSize) :
    exec (.call ra) s =
      .next (((s.setReg spReg s.pushAddr).setByte s.pushAddr (BitVec.ofNat 8 (s.pc + 2))).setPc (s.reg a).toNat) := by
  simp [exec, execCall, call, regIndex_names ha, push_ok h h', bind, Except.bind, pure, Except.pure]

theorem exec_call_overflow {ra : Byte} {a : Fin 8} (ha : Names ra a) {s : State} (h : s.sp ≤ s.config.stackLimit) :
    exec (.call ra) s = .next (s.takeFault .stackOverflow) := by
  simp [exec, execCall, call, regIndex_names ha, push_overflow h, bind, Except.bind]

theorem exec_call_outOfRange {ra : Byte} {a : Fin 8} (ha : Names ra a) {s : State} (h : s.config.stackLimit < s.sp)
    (h' : s.config.memSize ≤ s.pushAddr) : exec (.call ra) s = .next (s.takeFault .outOfRange) := by
  simp [exec, execCall, call, regIndex_names ha, push_outOfRange h h', bind, Except.bind]

theorem exec_ret_ok {s : State} (h : s.sp < s.config.spInit) :
    exec .ret s = .next ((s.setReg spReg ((s.sp : Int) + 1)).setPc (s.byteAt s.sp).toNat) := by
  simp [exec, execRet, ret, pop_ok h, bind, Except.bind, pure, Except.pure]

theorem exec_ret_underflow {s : State} (h : s.config.spInit ≤ s.sp) :
    exec .ret s = .next (s.takeFault .stackUnderflow) := by
  simp [exec, execRet, ret, pop_underflow h, bind, Except.bind]

theorem exec_jmp_ok {ra : Byte} {a : Fin 8} (ha : Names ra a) (s : State) :
    exec (.jmp ra) s = .next (s.setPc (s.reg a).toNat) := by
  simp [exec, execJmp, jumpIf, regIndex_names ha, bind, Except.bind, pure, Except.pure]

theorem exec_jeq_ok {ra : Byte} {a : Fin 8} (ha : Names ra a) (s : State) :
    exec (.jeq ra) s = .next (s.setPc (if s.flagEqual then (s.reg a).toNat else s.pc + 2)) := by
  cases h : s.flagEqual <;>
    simp [exec, execJeq, jumpIf, regIndex_names ha, h, bind, Except.bind, pure, Except.pure]

theorem exec_jne_ok {ra : Byte} {a : Fin 8} (ha : Names ra a) (s : State) :
    exec (.jne ra) s = .next (s.setPc (if s.flagEqual then s.pc + 2 else (s.reg a).toNat)) := by
  cases h : s.flagEqual <;>
    simp [exec, execJne, jumpIf, regIndex_names ha, h, bind, Except.bind, pure, Except.pure]

/-! ### LDI, PRN, HLT -/

theorem exec_ldi_ok {ra : Byte} {a : Fin 8} (ha : Names ra a) (imm : Byte) (s : State) :
    exec (.ldi ra imm) s = .next ((s.setReg a imm.toNat).setPc (s.pc + 3)) := by
  simp [exec, execLdi, immediate, regIndex_names ha, bind, Except.bind, pure, Except.pure]

theorem exec_prn_ok {ra : Byte} {a : Fin 8} (ha : Names ra a) (s : State) :
    exec (.prn ra) s = .next ((s.emit (s.reg a)).setPc (s.pc + 2)) := by
  simp [exec, execPrn, regIndex_names ha, bind, Except.bind, pure, Except.pure]

theorem exec_hlt_eq (s : State) : exec .hlt s = .next s.halt := rfl

/-! ### A register operand above 7 -/

/-- Every instruction with a register operand above 7 takes the fault `InvalidRegister` and does nothing else. -/
theorem exec_above {i : Instr} {r : Byte} (hr : r ∈ i.registerOperands) (h : 7 < r.toNat) (s : State) :
    exec i s = .next (s.takeFault .invalidRegister) := by
  have two : ∀ ra rb : Byte, r ∈ [ra, rb] → 7 < ra.toNat ∨ 7 < rb.toNat := by
    intro ra rb hm
    simp only [List.mem_cons, List.not_mem_nil, or_false] at hm
    rcases hm with rfl | rfl
    · exact .inl h
    · exact .inr h
  cases i with
  | hlt => simp [Instr.registerOperands] at hr
  | ret => simp [Instr.registerOperands] at hr
  | push ra => obtain rfl := List.mem_singleton.mp hr; simp [exec, execPush, regIndex_above h, bind, Except.bind]
  | pop ra => obtain rfl := List.mem_singleton.mp hr; simp [exec, execPop, regIndex_above h, bind, Except.bind]
  | prn ra => obtain rfl := List.mem_singleton.mp hr; simp [exec, execPrn, regIndex_above h, bind, Except.bind]
  | call ra => obtain rfl := List.mem_singleton.mp hr; simp [exec, execCall, regIndex_above h, bind, Except.bind]
  | jmp ra => obtain rfl := List.mem_singleton.mp hr; simp [exec, execJmp, jumpIf, regIndex_above h, bind, Except.bind]
  | jeq ra => obtain rfl := List.mem_singleton.mp hr; simp [exec, execJeq, jumpIf, regIndex_above h, bind, Except.bind]
  | jne ra => obtain rfl := List.mem_singleton.mp hr; simp [exec, execJne, jumpIf, regIndex_above h, bind, Except.bind]
  | inc ra =>
    obtain rfl := List.mem_singleton.mp hr
    simp [exec, execInc, aluExecute, alu_one_above (.inl rfl) h, bind, Except.bind]
  | dec ra =>
    obtain rfl := List.mem_singleton.mp hr
    simp [exec, execDec, aluExecute, alu_one_above (.inr rfl) h, bind, Except.bind]
  | ldi ra imm => obtain rfl := List.mem_singleton.mp hr; simp [exec, execLdi, regIndex_above h, bind, Except.bind]
  | add ra rb => simp [exec, execAdd, aluExecute, alu_two_above (.inl rfl) (two ra rb hr), bind, Except.bind]
  | mul ra rb => simp [exec, execMul, aluExecute, alu_two_above (.inr (.inl rfl)) (two ra rb hr), bind, Except.bind]
  | cmp ra rb => simp [exec, execCmp, aluExecute, alu_two_above (.inr (.inr rfl)) (two ra rb hr), bind, Except.bind]

/-! ### Everything an instruction can do -/

/-- A register operand names a register, or it is above 7 and the instruction takes the fault. -/
theorem exec_operand_cases {i : Instr} {r : Byte} (hr : r ∈ i.registerOperands) (s : State) :
    (∃ a, Names r a) ∨ exec i s = .next (s.takeFault .invalidRegister) :=
  (names_or_above r).imp id fun h => exec_above hr h s

/-- Where `pc` goes: an 8-bit target, or the next instruction. -/
def NextPc (i : Instr) (s : State) (p : Nat) : Prop := p ≤ 255 ∨ p = s.pc + (encode i).length

/-- The outcome of an instruction, by what it changes. -/
inductive Effect (i : Instr) (s : State) : State → Prop where
  /-- A fault an instruction can raise: the engine state alone changes. -/
  | fault (r : FaultReason) (hr : r = .invalidRegister ∨ r = .stackOverflow ∨ r = .stackUnderflow ∨ r = .outOfRange) :
      Effect i s (s.takeFault r)
  /-- HLT. -/
  | halt (hi : i = .hlt) : Effect i s s.halt
  /-- Registers, flags by CMP only, and `pc`. -/
  | registers (rf : RegisterFile) (p : Nat)
      (hf : rf.fl = s.fl ∨ (∃ ra rb, i = .cmp ra rb) ∧ flagsLegal rf.fl) (hi : i ≠ .hlt) (hp : NextPc i s p) :
      Effect i s ((s.setRf rf).setPc p)
  /-- The one store, by PUSH or CALL. -/
  | store (b : Byte) (p : Nat) (hl : s.config.stackLimit < s.sp) (hn : s.pushAddr < s.config.memSize)
      (hi : (∃ ra, i = .push ra) ∨ ∃ ra, i = .call ra) (hp : NextPc i s p) :
      Effect i s (((s.setReg spReg s.pushAddr).setByte s.pushAddr b).setPc p)
  /-- The one output, by PRN. -/
  | output (ra : Byte) (a : Fin 8) (hi : i = .prn ra) (ha : Names ra a) :
      Effect i s ((s.emit (s.reg a)).setPc (s.pc + 2))

theorem byte_le (b : Byte) : b.toNat ≤ 255 := by
  have := b.isLt
  omega

/-- Executing an instruction answers a next state, and its effect is one of the five. -/
theorem exec_effect (i : Instr) (s : State) : ∃ t, exec i s = .next t ∧ Effect i s t := by
  have bad : exec i s = .next (s.takeFault .invalidRegister) → ∃ t, exec i s = .next t ∧ Effect i s t :=
    fun h => ⟨_, h, .fault _ (.inl rfl)⟩
  cases i with
  | hlt => exact ⟨_, exec_hlt_eq s, .halt rfl⟩
  | ret =>
    by_cases h : s.sp < s.config.spInit
    · exact ⟨_, exec_ret_ok h, .registers (s.rf.write spReg _) _ (.inl rfl) (by simp) (.inl (byte_le _))⟩
    · exact ⟨_, exec_ret_underflow (Nat.le_of_not_lt h), .fault _ (.inr (.inr (.inl rfl)))⟩
  | push ra =>
    rcases exec_operand_cases (i := .push ra) List.mem_cons_self s with ⟨a, ha⟩ | h
    · by_cases h : s.config.stackLimit < s.sp
      · by_cases h' : s.pushAddr < s.config.memSize
        · exact ⟨_, exec_push_ok ha h h', .store _ _ h h' (.inl ⟨ra, rfl⟩) (.inr rfl)⟩
        · exact ⟨_, exec_push_outOfRange ha h (Nat.le_of_not_lt h'), .fault _ (.inr (.inr (.inr rfl)))⟩
      · exact ⟨_, exec_push_overflow ha (Nat.le_of_not_lt h), .fault _ (.inr (.inl rfl))⟩
    · exact bad h
  | pop ra =>
    rcases exec_operand_cases (i := .pop ra) List.mem_cons_self s with ⟨a, ha⟩ | h
    · by_cases h : s.sp < s.config.spInit
      · exact ⟨_, exec_pop_ok ha h, .registers ((s.rf.write spReg _).write a _) _ (.inl rfl) (by simp) (.inr rfl)⟩
      · exact ⟨_, exec_pop_underflow ha (Nat.le_of_not_lt h), .fault _ (.inr (.inr (.inl rfl)))⟩
    · exact bad h
  | prn ra =>
    rcases exec_operand_cases (i := .prn ra) List.mem_cons_self s with ⟨a, ha⟩ | h
    · exact ⟨_, exec_prn_ok ha s, .output ra a rfl ha⟩
    · exact bad h
  | call ra =>
    rcases exec_operand_cases (i := .call ra) List.mem_cons_self s with ⟨a, ha⟩ | h
    · by_cases h : s.config.stackLimit < s.sp
      · by_cases h' : s.pushAddr < s.config.memSize
        · exact ⟨_, exec_call_ok ha h h', .store _ _ h h' (.inr ⟨ra, rfl⟩) (.inl (byte_le _))⟩
        · exact ⟨_, exec_call_outOfRange ha h (Nat.le_of_not_lt h'), .fault _ (.inr (.inr (.inr rfl)))⟩
      · exact ⟨_, exec_call_overflow ha (Nat.le_of_not_lt h), .fault _ (.inr (.inl rfl))⟩
    · exact bad h
  | jmp ra =>
    rcases exec_operand_cases (i := .jmp ra) List.mem_cons_self s with ⟨a, ha⟩ | h
    · exact ⟨_, exec_jmp_ok ha s, .registers s.rf _ (.inl rfl) (by simp) (.inl (byte_le _))⟩
    · exact bad h
  | jeq ra =>
    rcases exec_operand_cases (i := .jeq ra) List.mem_cons_self s with ⟨a, ha⟩ | h
    · refine ⟨_, exec_jeq_ok ha s, .registers s.rf _ (.inl rfl) (by simp) ?_⟩
      split
      · exact .inl (byte_le _)
      · exact .inr rfl
    · exact bad h
  | jne ra =>
    rcases exec_operand_cases (i := .jne ra) List.mem_cons_self s with ⟨a, ha⟩ | h
    · refine ⟨_, exec_jne_ok ha s, .registers s.rf _ (.inl rfl) (by simp) ?_⟩
      split
      · exact .inr rfl
      · exact .inl (byte_le _)
    · exact bad h
  | inc ra =>
    rcases exec_operand_cases (i := .inc ra) List.mem_cons_self s with ⟨a, ha⟩ | h
    · exact ⟨_, exec_inc_ok ha s, .registers _ _ (.inl rfl) (by simp) (.inr rfl)⟩
    · exact bad h
  | dec ra =>
    rcases exec_operand_cases (i := .dec ra) List.mem_cons_self s with ⟨a, ha⟩ | h
    · exact ⟨_, exec_dec_ok ha s, .registers _ _ (.inl rfl) (by simp) (.inr rfl)⟩
    · exact bad h
  | ldi ra imm =>
    rcases exec_operand_cases (i := .ldi ra imm) List.mem_cons_self s with ⟨a, ha⟩ | h
    · exact ⟨_, exec_ldi_ok ha imm s, .registers (s.rf.write a _) _ (.inl rfl) (by simp) (.inr rfl)⟩
    · exact bad h
  | add ra rb =>
    rcases exec_operand_cases (i := .add ra rb) List.mem_cons_self s with ⟨a, ha⟩ | h
    · rcases exec_operand_cases (i := .add ra rb) (List.mem_cons_of_mem _ List.mem_cons_self) s with ⟨b, hb⟩ | h
      · exact ⟨_, exec_add_ok ha hb s, .registers _ _ (.inl rfl) (by simp) (.inr rfl)⟩
      · exact bad h
    · exact bad h
  | mul ra rb =>
    rcases exec_operand_cases (i := .mul ra rb) List.mem_cons_self s with ⟨a, ha⟩ | h
    · rcases exec_operand_cases (i := .mul ra rb) (List.mem_cons_of_mem _ List.mem_cons_self) s with ⟨b, hb⟩ | h
      · exact ⟨_, exec_mul_ok ha hb s, .registers _ _ (.inl rfl) (by simp) (.inr rfl)⟩
      · exact bad h
    · exact bad h
  | cmp ra rb =>
    rcases exec_operand_cases (i := .cmp ra rb) List.mem_cons_self s with ⟨a, ha⟩ | h
    · rcases exec_operand_cases (i := .cmp ra rb) (List.mem_cons_of_mem _ List.mem_cons_self) s with ⟨b, hb⟩ | h
      · exact ⟨_, exec_cmp_ok ha hb s, .registers _ _ (.inr ⟨⟨ra, rb, rfl⟩, compareFlags_legal _ _⟩) (by simp) (.inr rfl)⟩
      · exact bad h
    · exact bad h

/-- The same, read from a next state. -/
theorem exec_next {i : Instr} {s t : State} (h : exec i s = .next t) : Effect i s t := by
  obtain ⟨u, hu, he⟩ := exec_effect i s
  rw [hu] at h
  cases h
  exact he

end Sys2Proof.Machine
end

