-- ==== Sys2Proof/Laws/PerInstr.lean ====
section
/-!
SUPPORT. A fact of every instruction, constructor by constructor: the Decoder reads the instruction's mnemonic and its
operand count from the first byte of its encoding alone (spec/30_encoding.md R45, R51).
-/

namespace Sys2Proof.Laws.ShapeOfEncoding

/-- In a core that has the instruction, the first byte of its encoding decodes to a shape with its mnemonic and with as
many operand bytes as follow. -/
def Statement (i : Instr) : Prop :=
  ∀ c : Config, i.inTable c = true →
    ∃ op shape, (encode i).head? = some op ∧ decodeShape c op = .ok shape ∧ shape.mnemonic = i.mnemonic ∧
      shape.nops + 1 = (encode i).length

theorem hlt : Statement .hlt := fun _ _ => ⟨_, ⟨_, _, _, _⟩, rfl, rfl, rfl, rfl⟩

theorem ret : Statement .ret := fun _ _ => ⟨_, ⟨_, _, _, _⟩, rfl, rfl, rfl, rfl⟩

theorem push (ra : Byte) : Statement (.push ra) := fun _ _ => ⟨_, ⟨_, _, _, _⟩, rfl, rfl, rfl, rfl⟩

theorem pop (ra : Byte) : Statement (.pop ra) := fun _ _ => ⟨_, ⟨_, _, _, _⟩, rfl, rfl, rfl, rfl⟩

theorem prn (ra : Byte) : Statement (.prn ra) := fun _ _ => ⟨_, ⟨_, _, _, _⟩, rfl, rfl, rfl, rfl⟩

theorem call (ra : Byte) : Statement (.call ra) := fun _ _ => ⟨_, ⟨_, _, _, _⟩, rfl, rfl, rfl, rfl⟩

theorem jmp (ra : Byte) : Statement (.jmp ra) := fun _ _ => ⟨_, ⟨_, _, _, _⟩, rfl, rfl, rfl, rfl⟩

theorem jeq (ra : Byte) : Statement (.jeq ra) := fun _ _ => ⟨_, ⟨_, _, _, _⟩, rfl, rfl, rfl, rfl⟩

theorem jne (ra : Byte) : Statement (.jne ra) := fun _ _ => ⟨_, ⟨_, _, _, _⟩, rfl, rfl, rfl, rfl⟩

theorem inc (ra : Byte) : Statement (.inc ra) := fun c h =>
  ⟨0x65, ⟨.inc, 1, true, false⟩, rfl,
    by simp [decodeShape, opcodeTable, Mnemonic.inTable, show c.incDec = true from h, operandCount], rfl, rfl⟩

theorem dec (ra : Byte) : Statement (.dec ra) := fun c h =>
  ⟨0x66, ⟨.dec, 1, true, false⟩, rfl,
    by simp [decodeShape, opcodeTable, Mnemonic.inTable, show c.incDec = true from h, operandCount], rfl, rfl⟩

theorem ldi (ra imm : Byte) : Statement (.ldi ra imm) := fun _ _ => ⟨_, ⟨_, _, _, _⟩, rfl, rfl, rfl, by simp [operandCount, encode]⟩

theorem add (ra rb : Byte) : Statement (.add ra rb) := fun _ _ => ⟨_, ⟨_, _, _, _⟩, rfl, rfl, rfl, by simp [operandCount, encode]⟩

theorem mul (ra rb : Byte) : Statement (.mul ra rb) := fun _ _ => ⟨_, ⟨_, _, _, _⟩, rfl, rfl, rfl, by simp [operandCount, encode]⟩

theorem cmp (ra rb : Byte) : Statement (.cmp ra rb) := fun _ _ => ⟨_, ⟨_, _, _, _⟩, rfl, rfl, rfl, by simp [operandCount, encode]⟩

end Sys2Proof.Laws.ShapeOfEncoding
end

