-- ==== Sys2Proof/Laws/Fetch.lean ====
section
/-!
SUPPORT. Fetching: what a fetch answers, by cases, and that a fetched instruction is the one whose encoding lies at `pc`.
-/

namespace Sys2Proof.Machine

/-- The per-instruction fact of Laws/PerInstr.lean, for every instruction. -/
theorem shape_of_encoding (i : Instr) : Laws.ShapeOfEncoding.Statement i := by
  cases i with
  | hlt => exact Laws.ShapeOfEncoding.hlt
  | ret => exact Laws.ShapeOfEncoding.ret
  | push ra => exact Laws.ShapeOfEncoding.push ra
  | pop ra => exact Laws.ShapeOfEncoding.pop ra
  | prn ra => exact Laws.ShapeOfEncoding.prn ra
  | call ra => exact Laws.ShapeOfEncoding.call ra
  | jmp ra => exact Laws.ShapeOfEncoding.jmp ra
  | jeq ra => exact Laws.ShapeOfEncoding.jeq ra
  | jne ra => exact Laws.ShapeOfEncoding.jne ra
  | inc ra => exact Laws.ShapeOfEncoding.inc ra
  | dec ra => exact Laws.ShapeOfEncoding.dec ra
  | ldi ra imm => exact Laws.ShapeOfEncoding.ldi ra imm
  | add ra rb => exact Laws.ShapeOfEncoding.add ra rb
  | mul ra rb => exact Laws.ShapeOfEncoding.mul ra rb
  | cmp ra rb => exact Laws.ShapeOfEncoding.cmp ra rb

/-- What the Decoder accepts is a row of the opcode table that the core has. -/
theorem decodeShape_eq_ok {c : Config} {op : Byte} {shape : Shape} (h : decodeShape c op = .ok shape) :
    ∃ row ∈ opcodeTable, row.byte = op ∧ row.mnemonic.inTable c = true ∧
      shape = ⟨row.mnemonic, operandCount op, row.isAlu, row.setsPc⟩ := by
  unfold decodeShape at h
  split at h
  next row hrow =>
    have hp := List.find?_some hrow
    simp only [Bool.and_eq_true, beq_iff_eq] at hp
    exact ⟨row, List.mem_of_find?_eq_some hrow, hp.1, hp.2, by cases h; rfl⟩
  next => cases h

/-- What the Decoder rejects, it rejects as an illegal opcode. -/
theorem decodeShape_eq_error {c : Config} {op : Byte} {e : DecodeError} (h : decodeShape c op = .error e) :
    e = .illegalOpcode op := by
  unfold decodeShape at h
  split at h
  next => cases h
  next => cases h; rfl

/-- An accepted opcode byte, its mnemonic's operand count, and the first byte of the encoding all agree. -/
theorem decodeShape_encode {c : Config} {op : Byte} {shape : Shape} (h : decodeShape c op = .ok shape) (opA opB : Byte) :
    (shape.mnemonic.instr opA opB).inTable c = true ∧
      encode (shape.mnemonic.instr opA opB) = op :: [opA, opB].take shape.nops ∧ shape.nops ≤ 2 := by
  obtain ⟨row, hrow, hbyte, hin, rfl⟩ := decodeShape_eq_ok h
  subst hbyte
  simp only [opcodeTable, List.mem_cons, List.not_mem_nil, or_false] at hrow
  rcases hrow with rfl | rfl | rfl | rfl | rfl | rfl | rfl | rfl | rfl | rfl | rfl | rfl | rfl | rfl | rfl <;>
    simp_all [operandCount, Mnemonic.instr, encode, Instr.inTable, Mnemonic.inTable]

theorem decodeStage_ok {c : Config} {op : Byte} {shape : Shape} (h : decodeShape c op = .ok shape) :
    decodeStage c op = .ok shape := by
  simp [decodeStage, h]

theorem decodeStage_error {c : Config} {op : Byte} {e : DecodeError} (h : decodeShape c op = .error e) :
    decodeStage c op = .error .illegalOpcode := by
  simp [decodeStage, h]

theorem fetchOperand_unwanted (s : State) (a : Nat) : fetchOperand s false a = .ok 0 := rfl

theorem fetchOperand_wanted (s : State) (a : Nat) : fetchOperand s true a = s.memRead a := rfl

/-! ### The cases of a fetch -/

theorem fetch_pc_outOfRange {s : State} (h : s.config.memSize ≤ s.pc) : fetch s = .error .outOfRange := by
  simp [fetch, memRead_error h, bind, Except.bind]

theorem fetch_illegal {s : State} (h : s.pc < s.config.memSize) {e : DecodeError}
    (hd : decodeShape s.config (s.byteAt s.pc) = .error e) : fetch s = .error .illegalOpcode := by
  simp [fetch, memRead_ok h, decodeStage_error hd, bind, Except.bind]

/-- A legal opcode with an operand byte past the end of Memory. -/
theorem fetch_operand_outOfRange {s : State} (h : s.pc < s.config.memSize) {shape : Shape}
    (hd : decodeShape s.config (s.byteAt s.pc) = .ok shape) (hn : s.config.memSize ≤ s.pc + shape.nops) :
    fetch s = .error .outOfRange := by
  have h2 := (decodeShape_encode hd 0 0).2.2
  have hcases : shape.nops = 0 ∨ shape.nops = 1 ∨ shape.nops = 2 := by omega
  rcases hcases with h0 | h1 | h2
  · omega
  · have ha : s.config.memSize ≤ s.pc + 1 := by omega
    simp [fetch, memRead_ok h, decodeStage_ok hd, h1, fetchOperand_wanted, memRead_error ha, bind, Except.bind]
  · by_cases ha : s.pc + 1 < s.config.memSize
    · have hb : s.config.memSize ≤ s.pc + 2 := by omega
      simp [fetch, memRead_ok h, decodeStage_ok hd, h2, fetchOperand_wanted, memRead_ok ha, memRead_error hb, bind,
        Except.bind]
    · simp [fetch, memRead_ok h, decodeStage_ok hd, h2, fetchOperand_wanted, memRead_error (Nat.le_of_not_lt ha), bind,
        Except.bind]

/-- A legal opcode with all its operand bytes inside Memory: the instruction made of the bytes at `pc`. -/
theorem fetch_ok {s : State} {shape : Shape} (hd : decodeShape s.config (s.byteAt s.pc) = .ok shape)
    (hn : s.pc + shape.nops < s.config.memSize) :
    fetch s = .ok (shape.mnemonic.instr (if 1 ≤ shape.nops then s.byteAt (s.pc + 1) else 0)
      (if shape.nops = 2 then s.byteAt (s.pc + 2) else 0)) := by
  have h : s.pc < s.config.memSize := by omega
  have h2 := (decodeShape_encode hd 0 0).2.2
  have hcases : shape.nops = 0 ∨ shape.nops = 1 ∨ shape.nops = 2 := by omega
  rcases hcases with h0 | h1 | h2
  · simp [fetch, memRead_ok h, decodeStage_ok hd, h0, fetchOperand_unwanted, bind, Except.bind, pure, Except.pure]
  · have ha : s.pc + 1 < s.config.memSize := by omega
    simp [fetch, memRead_ok h, decodeStage_ok hd, h1, fetchOperand_wanted, fetchOperand_unwanted, memRead_ok ha, bind,
      Except.bind, pure, Except.pure]
  · have ha : s.pc + 1 < s.config.memSize := by omega
    have hb : s.pc + 2 < s.config.memSize := by omega
    simp [fetch, memRead_ok h, decodeStage_ok hd, h2, fetchOperand_wanted, memRead_ok ha, memRead_ok hb, bind,
      Except.bind, pure, Except.pure]

/-- The four things a fetch can do: fault past the end on the opcode, fault on an illegal opcode, fault past the end on an
operand, or answer an instruction. -/
theorem fetch_cases (s : State) :
    s.config.memSize ≤ s.pc ∧ fetch s = .error .outOfRange ∨
    (s.pc < s.config.memSize ∧ (∃ e, decodeShape s.config (s.byteAt s.pc) = .error e) ∧
      fetch s = .error .illegalOpcode) ∨
    (∃ shape, s.pc < s.config.memSize ∧ decodeShape s.config (s.byteAt s.pc) = .ok shape ∧
      s.config.memSize ≤ s.pc + shape.nops ∧ fetch s = .error .outOfRange) ∨
    (∃ shape, decodeShape s.config (s.byteAt s.pc) = .ok shape ∧ s.pc + shape.nops < s.config.memSize ∧
      fetch s = .ok (shape.mnemonic.instr (if 1 ≤ shape.nops then s.byteAt (s.pc + 1) else 0)
        (if shape.nops = 2 then s.byteAt (s.pc + 2) else 0))) := by
  by_cases h : s.pc < s.config.memSize
  · cases hd : decodeShape s.config (s.byteAt s.pc) with
    | error e => exact .inr (.inl ⟨h, ⟨e, rfl⟩, fetch_illegal h hd⟩)
    | ok shape =>
      by_cases hn : s.pc + shape.nops < s.config.memSize
      · exact .inr (.inr (.inr ⟨shape, rfl, hn, fetch_ok hd hn⟩))
      · have hn := Nat.le_of_not_lt hn
        exact .inr (.inr (.inl ⟨shape, h, rfl, hn, fetch_operand_outOfRange h hd hn⟩))
  · exact .inl ⟨Nat.le_of_not_lt h, fetch_pc_outOfRange (Nat.le_of_not_lt h)⟩

/-- A fetched instruction is one the core has, it lies wholly inside Memory, and its encoding is what lies at `pc`. -/
theorem fetch_eq_ok {s : State} {i : Instr} (h : fetch s = .ok i) :
    i.inTable s.config = true ∧ s.pc + (encode i).length ≤ s.config.memSize ∧
      ∀ k, k < (encode i).length → (encode i)[k]? = some (s.byteAt (s.pc + k)) := by
  rcases fetch_cases s with ⟨-, e⟩ | ⟨-, -, e⟩ | ⟨_, -, -, -, e⟩ | ⟨shape, hd, hn, e⟩
  · rw [e] at h; cases h
  · rw [e] at h; cases h
  · rw [e] at h; cases h
  · rw [e] at h
    cases h
    obtain ⟨hin, henc, h2⟩ := decodeShape_encode hd (if 1 ≤ shape.nops then s.byteAt (s.pc + 1) else 0)
      (if shape.nops = 2 then s.byteAt (s.pc + 2) else 0)
    refine ⟨hin, ?_⟩
    rw [henc]
    have hcases : shape.nops = 0 ∨ shape.nops = 1 ∨ shape.nops = 2 := by omega
    rcases hcases with h0 | h1 | h2
    · refine ⟨by simp [h0]; omega, fun k hk => ?_⟩
      simp [h0] at hk
      simp [hk, h0]
    · refine ⟨by simp [h1]; omega, fun k hk => ?_⟩
      simp [h1] at hk
      have : k = 0 ∨ k = 1 := by omega
      rcases this with rfl | rfl <;> simp [h1]
    · refine ⟨by simp [h2]; omega, fun k hk => ?_⟩
      simp [h2] at hk
      have : k = 0 ∨ k = 1 ∨ k = 2 := by omega
      rcases this with rfl | rfl | rfl <;> simp [h2]

/-! ### The step around exec -/

theorem step_running {s : State} (h : s.st = .running) : step s = engineStep s := by
  simp [step, tick, h]

theorem step_ready {s : State} (h : s.st = .ready) : step s = engineStep s.start := by
  simp [step, tick, h]

theorem step_halted {s : State} (h : s.st = .halted) : step s = .next s := by
  simp [step, tick, h]

theorem step_faulted {s : State} {r : FaultReason} (h : s.st = .faulted r) : step s = .next s := by
  simp [step, tick, h]

theorem engineStep_ok {s : State} {i : Instr} (h : fetch s = .ok i) : engineStep s = exec i s := by
  simp [engineStep, h]

/-- Everything a Step can do: a fault of the fetch, or the effect of the fetched instruction. -/
theorem engineStep_next {s t : State} (h : engineStep s = .next t) :
    (∃ r, fetch s = .error r ∧ (r = .outOfRange ∨ r = .illegalOpcode) ∧ t = s.takeFault r) ∨
    ∃ i, fetch s = .ok i ∧ Effect i s t := by
  unfold engineStep at h
  cases hf : fetch s with
  | error r =>
    simp only [hf] at h
    cases h
    refine .inl ⟨r, rfl, ?_, rfl⟩
    rcases fetch_cases s with ⟨-, e⟩ | ⟨-, -, e⟩ | ⟨_, -, -, -, e⟩ | ⟨_, -, -, e⟩ <;> rw [e] at hf <;> cases hf <;> simp
  | ok i =>
    simp only [hf] at h
    exact .inr ⟨i, rfl, exec_next h⟩

theorem engineStep_error {s : State} {r : FaultReason} (h : fetch s = .error r) :
    engineStep s = .next (s.takeFault r) := by
  simp [engineStep, h]

/-- Everything a step can do: nothing in a terminal state, else what a Step of the machine in `Running` can do. -/
theorem step_next {s t : State} (h : step s = .next t) :
    s.st.terminal = true ∧ t = s ∨
    ∃ u, (u = s ∧ s.st = .running ∨ u = s.start ∧ s.st = .ready) ∧ engineStep u = .next t := by
  cases hst : s.st with
  | ready => exact .inr ⟨s.start, .inr ⟨rfl, rfl⟩, step_ready hst ▸ h⟩
  | running => exact .inr ⟨s, .inl ⟨rfl, rfl⟩, step_running hst ▸ h⟩
  | halted =>
    rw [step_halted hst] at h
    cases h
    exact .inl ⟨rfl, rfl⟩
  | faulted r =>
    rw [step_faulted hst] at h
    cases h
    exact .inl ⟨rfl, rfl⟩

end Sys2Proof.Machine
end

