-- ==== Sys2Proof/Tests/Slice0.lean ====
section
/-!
SUPPORT. The model's own tests: ill-formed terms, decoding of words written out bit by bit from spec/30_encoding.md R50,
vectors of spec/95_test_vectors.md (named in each docstring), and for each statement with hypotheses a witness that meets
them, clause by clause and at the ends of the ranges.
-/

namespace Sys2Proof.Machine.Tests

/-! ### Small machines -/

/-- A running default core with register writes and `FL` given, and code placed at `pc`. -/
def core (regs : List (Fin 8 × Int)) (fl : Byte) (pc : Nat) (code : List Byte) : State :=
  let s := regs.foldl (fun s p => s.setReg p.1 p.2) State.reset
  ({ s with rf := { s.rf with fl := fl }, pc := pc, st := .running } : State).placeBytes pc code

/-- The same core constructed with other parameters. -/
def withConfig (c : Config) (s : State) : State := { s with config := c }

/-- A core of `N` = 4 bytes. -/
def small : Config := { memSize := 4, stackLimit := 0, incDec := true }

/-- A core with `STACK_LIMIT` = 10. -/
def limited : Config := { memSize := 256, stackLimit := 10, incDec := true }

/-- A core without INC and DEC. -/
def noIncDec : Config := { memSize := 256, stackLimit := 0, incDec := false }

/-- The outcome is a next state with a property. -/
def nextHas (o : Outcome) (p : State → Bool) : Bool :=
  match o with
  | .next t => p t
  | .fault _ => false
  | .refused _ => false

/-- The result is a state with a property. -/
def okHas (r : Except FaultReason State) (p : State → Bool) : Bool :=
  match r with
  | .ok t => p t
  | .error _ => false

/-- The bytes at `pc` decode to `i`. -/
def decodesTo (s : State) (i : Instr) : Bool :=
  match decode s.config s.codeBytes with
  | .ok (j, _) => j == i
  | .error _ => false

/-- The shape the Decoder gives the byte at `pc`. -/
def shapeOf (s : State) : Option Shape := (decodeShape s.config (s.byteAt s.pc)).toOption

/-- The reason a result raised. -/
def raised {α : Type} (r : Except FaultReason α) : Option FaultReason :=
  match r with
  | .ok _ => none
  | .error reason => some reason

/-- The hypotheses of `OperandPastEndFaults i` in a state. -/
def pastEnd (i : Instr) (s : State) : Bool :=
  s.st == .running && i.inTable s.config && decide (s.pc < s.config.memSize) &&
    (encode i).head? == some (s.byteAt s.pc) && decide (s.config.memSize < s.pc + (encode i).length)

/-! ### WellFormed refuses ill-formed terms -/

theorem test_wellFormed_accepts : (Instr.add 0 7).wellFormed Config.ls8 = true ∧ (Instr.ldi 7 0xFF).wellFormed Config.ls8 = true := by
  decide

theorem test_wellFormed_refuses_first_register : (Instr.add 8 0).wellFormed Config.ls8 = false := by decide

theorem test_wellFormed_refuses_second_register : (Instr.cmp 0 200).wellFormed Config.ls8 = false := by decide

theorem test_wellFormed_refuses_absent_inc : (Instr.inc 0).wellFormed noIncDec = false ∧ (Instr.dec 0).wellFormed noIncDec = false := by
  decide

/-! ### Decoding of written-out words (spec/30_encoding.md R50, R47): every constructor -/

theorem test_decode_Z : decodeTableWord 8 0b00000001 = some .hlt ∧ decodeTableWord 8 0b00010001 = some .ret := by decide

theorem test_decode_stack : decodeTableWord 16 0b0000000001000101 = some (.push 0) ∧
    decodeTableWord 16 0b0000000101000110 = some (.pop 1) := by decide

theorem test_decode_control : decodeTableWord 16 0b0000001001010000 = some (.call 2) ∧
    decodeTableWord 16 0b0000001001010100 = some (.jmp 2) ∧ decodeTableWord 16 0b0000001101010101 = some (.jeq 3) ∧
    decodeTableWord 16 0b0000001001010110 = some (.jne 2) := by decide

theorem test_decode_alu : decodeTableWord 16 0b0000001101100101 = some (.inc 3) ∧
    decodeTableWord 16 0b0000001001100110 = some (.dec 2) ∧
    decodeTableWord 24 0b000000010000000010100000 = some (.add 0 1) ∧
    decodeTableWord 24 0b000000100000000110100010 = some (.mul 1 2) ∧
    decodeTableWord 24 0b110010000000000010100111 = some (.cmp 0 200) := by decide

theorem test_decode_data : decodeTableWord 24 0b000010000000000010000010 = some (.ldi 0 8) ∧
    decodeTableWord 16 0b0000000001000111 = some (.prn 0) := by decide

/-- The bytes above the table's width are 0, and a byte that is no opcode is refused. -/
theorem test_decode_reserved : decodeTableWord 8 0xFF01 = some .hlt ∧ decodeTableWord 8 0x00 = none ∧
    decodeTableWord 8 0xFF = none ∧ decodeTableWord 8 0xC1 = none := by decide

/-- A word placed at reset is the first instruction that runs (spec/70_reset_and_hazards.md R127). -/
theorem test_placed_word_runs : nextHas (step (State.reset.withFetchWord 24 0x080082))
    (fun t => t.reg 0 = 8 ∧ t.pc = 3 ∧ t.st = .running) := by decide

/-! ### Vectors of spec/95_test_vectors.md -/

/-- A1. -/
theorem test_add_wraps : nextHas (step (core [(0, 0xFA), (1, 0x0A)] 0 0 [0xA0, 0, 1])) (fun t => t.reg 0 = 4 ∧ t.pc = 3) := by
  decide

/-- A7. -/
theorem test_add_moves_stack : nextHas (step (core [(0, 3), (7, 0xF0)] 0 0 [0xA0, 7, 0])) (fun t => t.reg 7 = 0xF3) := by
  decide

/-- A11. -/
theorem test_mul_low_byte : nextHas (step (core [(0, 0xC8), (1, 3)] 0 0 [0xA2, 0, 1])) (fun t => t.reg 0 = 0x58) := by decide

/-- A14. -/
theorem test_inc_wraps : nextHas (step (core [(3, 0xFF)] 2 0 [0x65, 3])) (fun t => t.reg 3 = 0 ∧ t.fl = 2 ∧ t.pc = 2) := by
  decide

/-- A17. -/
theorem test_dec_wraps : nextHas (step (core [] 0 0 [0x66, 2])) (fun t => t.reg 2 = 0xFF) := by decide

/-- A21. -/
theorem test_cmp_unsigned : nextHas (step (core [(0, 0xFF), (1, 1)] 0 0 [0xA7, 0, 1])) (fun t => t.fl = 2 ∧ t.pc = 3) := by
  decide

/-- A22. -/
theorem test_cmp_overwrites : nextHas (step (core [(1, 0xFF)] 1 0 [0xA7, 0, 1])) (fun t => t.fl = 4) := by decide

/-- K2. -/
theorem test_push_r7_old_value : nextHas (step (core [] 0 0 [0x45, 7])) (fun t => t.reg 7 = 0xFE ∧ t.byteAt 0xFE = 0xFF) := by
  decide

/-- K6, K7. -/
theorem test_push_stack_limit :
    nextHas (step (withConfig limited (core [(7, 0x0A)] 0 0 [0x45, 0]))) (fun t => t.st = .faulted .stackOverflow) ∧
    nextHas (step (withConfig limited (core [(0, 7), (7, 0x0B)] 0 0 [0x45, 0]))) (fun t => t.reg 7 = 0x0A ∧ t.byteAt 0x0A = 7) := by
  decide

/-- K10. -/
theorem test_pop_r7 : nextHas (step ((core [(7, 0xFD)] 0 0 [0x46, 7]).setByte 0xFD 0x80)) (fun t => t.reg 7 = 0x80) := by decide

/-- K11: the bad register is reported before the empty stack. -/
theorem test_pop_priority : nextHas (step (core [] 0 0 [0x46, 9])) (fun t => t.st = .faulted .invalidRegister ∧ t.pc = 0) := by
  decide

/-- T2. -/
theorem test_call_at_254 : nextHas (step (core [(2, 0x20), (7, 0x80)] 0 254 [0x50, 2]))
    (fun t => t.byteAt 0x7F = 0 ∧ t.reg 7 = 0x7F ∧ t.pc = 32) := by decide

/-- T3. -/
theorem test_call_r7 : nextHas (step (core [] 0 4 [0x50, 7])) (fun t => t.pc = 255 ∧ t.byteAt 0xFE = 6) := by decide

/-- T6. -/
theorem test_ret : nextHas (step ((core [(7, 0xFE)] 0 17 [0x11]).setByte 0xFE 0x0B)) (fun t => t.pc = 11 ∧ t.reg 7 = 0xFF) := by
  decide

/-- T8. -/
theorem test_jmp : nextHas (step (core [(2, 9)] 0 16 [0x54, 2])) (fun t => t.pc = 9) := by decide

/-- T11, T12. -/
theorem test_jeq : nextHas (step (core [(3, 0x18)] 1 20 [0x55, 3])) (fun t => t.pc = 24) ∧
    nextHas (step (core [(3, 0x18)] 2 20 [0x55, 3])) (fun t => t.pc = 22) := by decide

/-- T13: a jump that would not be taken checks its register all the same. -/
theorem test_jeq_checks_register : nextHas (step (core [] 0 20 [0x55, 8])) (fun t => t.st = .faulted .invalidRegister) := by
  decide

/-- T14, T15. -/
theorem test_jne : nextHas (step (core [(2, 9)] 0 16 [0x56, 2])) (fun t => t.pc = 9) ∧
    nextHas (step (core [(2, 9)] 1 16 [0x56, 2])) (fun t => t.pc = 18) := by decide

/-- L2. -/
theorem test_ldi : nextHas (step (core [] 0 0 [0x82, 7, 0x80])) (fun t => t.reg 7 = 0x80 ∧ t.pc = 3) := by decide

/-- L5; the sink prints `255`. -/
theorem test_prn : nextHas (step (core [(0, 0xFF)] 0 0 [0x47, 0])) (fun t => t.out = [255] ∧ sinkText t.out = "255\n") := by
  decide

/-- L7. -/
theorem test_hlt : nextHas (step (core [] 0 255 [0x01])) (fun t => t.st = .halted ∧ t.pc = 255) := by decide

/-- E4, E5: a missing operand comes before a bad register, an illegal opcode before a missing operand. -/
theorem test_fetch_priority : nextHas (step (core [] 0 254 [0x82, 9])) (fun t => t.st = .faulted .outOfRange ∧ t.pc = 254) ∧
    nextHas (step (core [] 0 255 [0xC1])) (fun t => t.st = .faulted .illegalOpcode) := by decide

/-- E6 (spec/70_reset_and_hazards.md R127): running with nothing loaded faults at once. -/
theorem test_empty_core : nextHas (step State.reset) (fun t => t.st = .faulted .illegalOpcode ∧ t.pc = 0) := by decide

/-- The fault codes of spec/60_exceptions.md R105. -/
theorem test_fault_codes : [FaultReason.outOfRange, .invalidRegister, .illegalOpcode, .stackUnderflow, .stackOverflow,
    .unsupportedOperation].map FaultReason.code = [1, 2, 3, 4, 5, 6] := by decide

/-- The image text of spec/30_encoding.md R57, shortened, and the spelling of R56. -/
theorem test_text_forms : parseImage "10000010 # LDI r0,8\n00000000\n\n # note\n00001000\n" = some [0x82, 0, 8] ∧
    parseImage "2\n" = none ∧ listing (.ldi 0 8) = some "LDI r0, 8" ∧ listing (.add 8 0) = none := by decide

/-! ### Witnesses: the hypotheses of the statements can be met -/

theorem witness_AddWritesSumModulo256 : Names 0 0 ∧ Names 7 7 ∧ 7 < (8 : Byte).toNat ∧ 7 < (255 : Byte).toNat ∧
    pastEnd (.add 0 1) (core [] 0 254 [0xA0, 0]) ∧ pastEnd (.add 0 1) (core [] 0 255 [0xA0]) := by decide

theorem witness_MulWritesLowByteOfProduct : Names 0 0 ∧ Names 7 7 ∧ 7 < (8 : Byte).toNat ∧
    pastEnd (.mul 0 1) (core [] 0 254 [0xA2, 0]) ∧ pastEnd (.mul 0 1) (core [] 0 255 [0xA2]) := by decide

theorem witness_IncWritesSuccessorModulo256 : Config.ls8.incDec = true ∧ Names 7 7 ∧ 7 < (8 : Byte).toNat ∧
    pastEnd (.inc 0) (core [] 0 255 [0x65]) := by decide

theorem witness_DecWritesPredecessorModulo256 : Config.ls8.incDec = true ∧ Names 7 7 ∧ 7 < (8 : Byte).toNat ∧
    pastEnd (.dec 0) (core [] 0 255 [0x66]) := by decide

/-- One witness for each of equal, greater, less. -/
theorem witness_CmpWritesOneOfThreeFlags : Names 0 0 ∧ Names 1 1 ∧ 7 < (8 : Byte).toNat ∧
    ((core [] 0 0 []).reg 0).toNat = ((core [] 0 0 []).reg 1).toNat ∧
    ((core [(0, 255)] 0 0 []).reg 0).toNat > ((core [(0, 255)] 0 0 []).reg 1).toNat ∧
    ((core [(1, 255)] 0 0 []).reg 0).toNat < ((core [(1, 255)] 0 0 []).reg 1).toNat ∧
    pastEnd (.cmp 0 1) (core [] 0 254 [0xA7, 0]) ∧ pastEnd (.cmp 0 1) (core [] 0 255 [0xA7]) := by decide

/-- The states in which a push succeeds, overflows and runs past the end, at the ends of the ranges. -/
theorem witness_push : let low := core [(7, 1)] 0 0 []
    let empty := core [(7, 0)] 0 0 []
    let top := withConfig small (core [(7, 4)] 0 0 [])
    let past := withConfig small (core [(7, 5)] 0 0 [])
    (low.mem.wf ∧ low.config.stackLimit < low.sp ∧ low.pushAddr < low.config.memSize) ∧
    (top.mem.wf ∧ top.config.stackLimit < top.sp ∧ top.pushAddr < top.config.memSize) ∧
    empty.sp ≤ empty.config.stackLimit ∧
    (past.config.stackLimit < past.sp ∧ past.config.memSize ≤ past.pushAddr) := by decide

theorem witness_PushStoresBelowStackPointer : Names 0 0 ∧ Names 7 7 ∧ 7 < (8 : Byte).toNat ∧
    pastEnd (.push 0) (core [] 0 255 [0x45]) := by decide

theorem witness_CallPushesReturnAddress : Names 0 0 ∧ Names 7 7 ∧ 7 < (8 : Byte).toNat ∧
    pastEnd (.call 0) (core [] 0 255 [0x50]) := by decide

/-- The states in which a pop succeeds and underflows, at the ends of the ranges. -/
theorem witness_pop : let one := core [(7, 254)] 0 0 []
    let bottom := core [(7, 0)] 0 0 []
    let empty := core [] 0 0 []
    (one.config.wf ∧ one.sp < one.config.spInit) ∧ (bottom.config.wf ∧ bottom.sp < bottom.config.spInit) ∧
    empty.config.spInit ≤ empty.sp := by decide

theorem witness_PopLoadsTopOfStack : Names 0 0 ∧ Names 7 7 ∧ 7 < (8 : Byte).toNat ∧ (0 : Fin 8) ≠ spReg ∧
    pastEnd (.pop 0) (core [] 0 255 [0x46]) := by decide

/-- `witness_pop` gives the states of the two clauses. -/
theorem witness_RetPopsProgramCounter : (core [(7, 254)] 0 0 []).sp < (core [(7, 254)] 0 0 []).config.spInit ∧
    (core [] 0 0 []).config.spInit ≤ (core [] 0 0 []).sp := by decide

theorem witness_JmpLoadsRegisterIntoPc : Names 0 0 ∧ Names 7 7 ∧ 7 < (8 : Byte).toNat ∧
    pastEnd (.jmp 0) (core [] 0 255 [0x54]) := by decide

theorem witness_JeqJumpsWhenEqual : Names 0 0 ∧ 7 < (8 : Byte).toNat ∧ (core [] 1 0 []).fl.getLsbD 0 = true ∧
    (core [] 0 0 []).fl.getLsbD 0 = false ∧ pastEnd (.jeq 0) (core [] 0 255 [0x55]) := by decide

theorem witness_JneJumpsWhenNotEqual : Names 0 0 ∧ 7 < (8 : Byte).toNat ∧ (core [] 0 0 []).fl.getLsbD 0 = false ∧
    (core [] 1 0 []).fl.getLsbD 0 = true ∧ pastEnd (.jne 0) (core [] 0 255 [0x56]) := by decide

theorem witness_LdiWritesImmediate : Names 0 0 ∧ Names 7 7 ∧ 7 < (8 : Byte).toNat ∧
    pastEnd (.ldi 0 0) (core [] 0 254 [0x82, 0]) ∧ pastEnd (.ldi 0 0) (core [] 0 255 [0x82]) := by decide

theorem witness_PrnEmitsRegister : Names 0 0 ∧ Names 7 7 ∧ 7 < (8 : Byte).toNat ∧
    pastEnd (.prn 0) (core [] 0 255 [0x47]) := by decide

theorem witness_RegisterWriteWrapsModulo256 : (0 : Fin 8) ≠ 7 := by decide

/-- A first and a second operand above 7, and a running machine that takes the fault. -/
theorem witness_InvalidRegisterBeforeAnyEffect : (8 : Byte) ∈ (Instr.jeq 8).registerOperands ∧
    (8 : Byte) ∈ (Instr.add 0 8).registerOperands ∧ 7 < (8 : Byte).toNat ∧
    nextHas (exec (.add 0 8) (core [] 0 0 [])) (fun t => t.st = .faulted .invalidRegister) := by decide

theorem witness_MemReadNeverWraps : 255 < State.reset.config.memSize ∧ State.reset.config.memSize ≤ 256 := by decide

theorem witness_MemWriteTruncates : State.reset.mem.wf ∧ 255 < State.reset.config.memSize ∧ State.reset.config.memSize ≤ 256 := by
  decide

/-- The clauses' own conditions, at their ends: `x[7]` = 0, 1 by default, and 4, 5 with `N` = 4. -/
theorem witness_PushPrimitive : (core [(7, 0)] 0 0 []).mem.wf ∧ (core [(7, 0)] 0 0 []).sp = 0 ∧ (core [(7, 1)] 0 0 []).sp = 1 ∧
    (withConfig small (core [(7, 4)] 0 0 [])).sp - 1 < 4 ∧ 4 ≤ (withConfig small (core [(7, 5)] 0 0 [])).sp - 1 := by decide

theorem witness_PopPrimitive : (core [] 0 0 []).config.wf ∧ (core [] 0 0 []).config.memSize - 1 ≤ (core [] 0 0 []).sp ∧
    (core [(7, 254)] 0 0 []).sp < (core [(7, 254)] 0 0 []).config.memSize - 1 := by decide

theorem witness_CallAndRetPrimitives : okHas (push 5 (core [] 0 0 [])) (fun _ => true) ∧
    raised (push 5 (core [(7, 0)] 0 0 [])) = some .stackOverflow ∧
    (pop (core [(7, 254)] 0 0 [])).toOption.map Prod.fst = some 0 ∧
    raised (pop (core [] 0 0 [])) = some .stackUnderflow := by decide

/-- Two pushes from the empty stack; the machine in between is the one after the pushes. -/
theorem witness_StackRoundTrip : (core [] 0 0 []).config.wf ∧ (core [] 0 0 []).mem.wf ∧
    (core [] 0 0 []).sp ≤ (core [] 0 0 []).config.spInit ∧
    okHas (pushAll [0x11, 0x22] (core [] 0 0 [])) (fun t => t.sp = 253 ∧ t.byteAt 253 = 0x22) := by decide

/-- A CALL at 253, the last address of the law, and the machine right after it. -/
theorem witness_CallThenReturn : let s := core [(2, 0x20)] 0 253 [0x50, 2]
    s.config.wf ∧ s.mem.wf ∧ s.st = .running ∧ s.pc ≤ 253 ∧ s.sp ≤ s.config.spInit ∧
    nextHas (exec (.call 2) s) (fun t => t.st = .running ∧ t.byteAt t.sp = 255) := by decide

theorem witness_StackLimitProtectsImage : let s := withConfig limited (core [(0, 7), (7, 11)] 0 0 [0x45, 0])
    s.mem.wf ∧ 9 < s.config.stackLimit ∧ nextHas (step s) (fun t => t.st = .running ∧ t.byteAt 10 = 7) := by decide

/-- An illegal opcode, also at the last address, with bits 7:6 both set. -/
theorem witness_IllegalOpcodeBeforeOperands : let s := core [] 0 255 [0xC1]
    s.st = .running ∧ s.pc < s.config.memSize ∧ s.byteAt s.pc = 0xC1 ∧
    (0xC1 : Byte) ∉ [0x01, 0x11, 0x45, 0x46, 0x47, 0x50, 0x54, 0x55, 0x56, 0x65, 0x66, 0x82, 0xA0, 0xA2, 0xA7] ∧
    192 ≤ (0xC0 : Byte).toNat := by decide

theorem witness_IncDecBytesIllegalWhenAbsent : let s := withConfig noIncDec (core [] 0 0 [0x65])
    let u := withConfig noIncDec (core [] 0 255 [0x66])
    (s.st = .running ∧ s.config.incDec = false ∧ s.pc < s.config.memSize ∧ s.byteAt s.pc = 0x65) ∧
    (u.st = .running ∧ u.config.incDec = false ∧ u.pc < u.config.memSize ∧ u.byteAt u.pc = 0x66) := by decide

theorem witness_DecodeOfEncode : (Instr.inc 3).inTable Config.ls8 = true ∧ (Instr.hlt).inTable noIncDec = true := by decide

theorem witness_EncodeOfDecode : decode Config.ls8 [0x82, 0, 8, 0x47] = .ok (.ldi 0 8, [0x47]) := by rfl

/-- A running and a ready machine with an instruction at `pc`, the last one at the last address. -/
theorem witness_StepRunsDecodedInstruction : decodesTo (core [] 0 253 [0x82, 0, 1]) (.ldi 0 1) ∧
    (core [] 0 253 [0x82, 0, 1]).st = .running ∧ decodesTo (State.reset.placeBytes 0 [0x01]) .hlt ∧
    (State.reset.placeBytes 0 [0x01]).st = .ready ∧ decodesTo (core [] 0 255 [0x01]) .hlt := by decide

/-- Also at the last `pc` the word fits. -/
theorem witness_PlacedWordIsRunNext : State.reset.config = Config.ls8 ∧ State.reset.mem.wf ∧ State.reset.pc + 3 ≤ 256 ∧
    decodeTableWord 24 0x080082 = some (.ldi 0 8) ∧ (core [] 0 253 []).pc + 3 ≤ 256 := by decide

/-- Each row of the transition table has a state. -/
theorem witness_EngineStateMoves : State.reset.st = .ready ∧ (State.reset.loadImage [0x01]).isSome = true ∧
    nextHas (step (core [] 0 0 [0x01])) (fun t => t.st = .halted) ∧
    nextHas (step (core [] 0 0 [0x82, 0, 8])) (fun t => t.st = .running) ∧
    nextHas (step (core [] 0 0 [0x00])) (fun t => t.st = .faulted .illegalOpcode) ∧
    (core [] 0 0 []).halt.st.terminal = true ∧ (State.takeFault .outOfRange (core [] 0 0 [])).st.terminal = true ∧
    ((core [] 0 0 []).halt.loadImage [0x01]).isSome = true := by decide

theorem witness_FaultsArePrecise : nextHas (step (core [] 0 0 [0x46, 0])) (fun t => t.st = .faulted .stackUnderflow) ∧
    nextHas (step State.reset) (fun t => t.st = .faulted .illegalOpcode) ∧ State.reset.st = .ready := by decide

/-- One state for each row of the priority list, at the ends of the ranges. -/
theorem witness_FaultPriority :
    (core [] 0 256 []).config.memSize ≤ (core [] 0 256 []).pc ∧
    shapeOf (core [] 0 255 [0xC1]) = none ∧
    shapeOf (core [] 0 254 [0x82, 9]) = some ⟨.ldi, 2, false, false⟩ ∧
    decodesTo (core [] 0 0 [0x46, 9]) (.pop 9) ∧
    (decodesTo (core [(7, 0)] 0 16 [0x45, 0]) (.push 0) ∧ (core [(7, 0)] 0 16 [0x45, 0]).sp = 0) ∧
    (decodesTo (core [(7, 1)] 0 16 [0x50, 0]) (.call 0) ∧ (core [(7, 1)] 0 16 [0x50, 0]).sp = 1) ∧
    (decodesTo (withConfig small (core [(7, 5)] 0 0 [0x45, 0])) (.push 0) ∧
      4 ≤ (withConfig small (core [(7, 5)] 0 0 [0x45, 0])).sp - 1) ∧
    (decodesTo (core [] 0 0 [0x11]) .ret ∧ (core [] 0 0 [0x11]).config.spInit ≤ (core [] 0 0 [0x11]).sp) ∧
    (decodesTo (core [(7, 254)] 0 0 [0x46, 0]) (.pop 0) ∧
      (core [(7, 254)] 0 0 [0x46, 0]).sp < (core [(7, 254)] 0 0 [0x46, 0]).config.spInit) ∧
    decodesTo (core [] 0 255 [0x01]) .hlt := by decide

/-- A fault, and one state for each shape of the table of R17: three bytes, two bytes, the jumps, CALL, RET, HLT. -/
theorem witness_ProgramCounterAfterStep : nextHas (step (core [] 0 7 [0x46, 0])) (fun t => t.st = .faulted .stackUnderflow) ∧
    nextHas (step (core [] 0 253 [0x82, 0, 1])) (fun t => t.st = .running) ∧
    nextHas (step (core [] 0 0 [0x45, 0])) (fun t => t.st = .running) ∧
    (nextHas (step (core [] 1 0 [0x55, 0])) (fun t => t.st = .running) ∧ Names 0 0) ∧
    nextHas (step (core [] 0 0 [0x56, 0])) (fun t => t.st = .running) ∧
    (nextHas (step (core [] 0 0 [0x50, 0])) (fun t => t.st = .running) ∧ (core [] 0 0 [0x50, 0]).mem.wf) ∧
    nextHas (step (core [(7, 254)] 0 0 [0x11])) (fun t => t.st = .running) ∧
    nextHas (step (core [] 0 255 [0x01])) (fun t => t.st = .halted) := by decide

theorem witness_FlagsWrittenByCompareOnly :
    nextHas (step (core [] 0 0 [0xA7, 0, 1])) (fun t => t.fl ≠ (core [] 0 0 [0xA7, 0, 1]).fl) ∧ Names 0 0 ∧ Names 1 1 ∧
    nextHas (exec (.cmp 0 1) (core [] 0 0 [])) (fun _ => true) := by decide

/-- Two machines that differ in G and L only, before a JNE. -/
theorem witness_UnreadFlagsNeverMatter : SameButUnreadFlags (core [(2, 9)] 2 16 [0x56, 2]) (core [(2, 9)] 4 16 [0x56, 2]) ∧
    core [(2, 9)] 2 16 [0x56, 2] ≠ core [(2, 9)] 4 16 [0x56, 2] ∧
    nextHas (step (core [(2, 9)] 2 16 [0x56, 2])) (fun t => t.pc = 9) := by decide

theorem witness_MemoryWrittenByPushAndCallOnly : (core [] 0 4 [0x50, 7]).mem.wf ∧
    nextHas (step (core [] 0 4 [0x50, 7])) (fun t => t.byteAt 254 ≠ (core [] 0 4 [0x50, 7]).byteAt 254) := by decide

theorem witness_OutputGrowsByPrnOnly : nextHas (step (core [] 0 0 [0x47, 0])) (fun t => t.out ≠ (core [] 0 0 [0x47, 0]).out) := by
  decide

theorem witness_OutputIsNeverRead : nextHas (step (core [] 0 0 [0x47, 0])) (fun t => t.out = [0]) := by decide

theorem witness_UnsupportedOperationUnreachable : Mnemonic.hlt ∉ [Mnemonic.add, .mul, .inc, .dec, .cmp] ∧
    Mnemonic.ldi ∉ [Mnemonic.add, .mul, .inc, .dec, .cmp] ∧ nextHas (step State.reset) (fun _ => true) ∧
    nextHas (step (core [] 0 0 [0xA0, 8, 8])) (fun t => t.st = .faulted .invalidRegister) := by decide

/-- T9: JMP r0 at 0 with `x[0] = 0`; and the last address at which a JMP fits. -/
theorem witness_SelfJumpLoopsForever : let s := core [] 0 0 [0x54, 0]
    let u := core [(1, 254)] 0 254 [0x54, 1]
    (s.st = .running ∧ s.pc + 1 < s.config.memSize ∧ s.byteAt s.pc = 0x54 ∧ s.byteAt (s.pc + 1) = 0 ∧ Names 0 0 ∧
      (s.reg 0).toNat = s.pc) ∧
    (u.st = .running ∧ u.pc + 1 < u.config.memSize ∧ u.byteAt u.pc = 0x54 ∧ u.byteAt (u.pc + 1) = 1 ∧ Names 1 1 ∧
      (u.reg 1).toNat = u.pc) := by decide

theorem witness_InvariantAtReset : Config.ls8.wf ∧ small.wf := by decide

theorem witness_StepKeepsInvariant : (core [] 0 253 [0x82, 0, 1]).Inv ∧
    nextHas (step (core [] 0 253 [0x82, 0, 1])) (fun t => t.pc = 256) = true :=
  ⟨⟨by decide, by decide, by decide, by decide, by decide⟩, by decide⟩

/-- A ready machine, whose memory the loader changes; and a running one, which a load leaves alone. -/
theorem witness_HostOperationsKeepInvariant :
    (State.reset.Inv ∧ (State.reset.loadImage [0x01]).map (·.byteAt 0) = some 0x01 ∧
      (State.reset.loadByte 255 0x01).byteAt 255 = 0x01) ∧
    (core [] 0 253 [0x82, 0, 1]).Inv ∧ (core [] 0 253 [0x82, 0, 1]).loadImage [0x01] = some (core [] 0 253 [0x82, 0, 1]) :=
  ⟨⟨⟨by decide, by decide, by decide, by decide, by decide⟩, by decide, by decide⟩,
    ⟨by decide, by decide, by decide, by decide, by decide⟩, by decide⟩

/-- A loader write in `Ready` at `N` (the model's choice, notes/assumptions/15.md) and one outside `Ready` (D22) do nothing. -/
theorem test_loadByte_without_effect : State.reset.loadByte 256 0x01 = State.reset ∧
    (core [] 0 0 []).loadByte 0 0x01 = core [] 0 0 [] := by decide

/-- An image that fits exactly and one a byte too long, in a core of 4 bytes; and a machine that is not ready. -/
theorem witness_LoadImagePlacesBytes : let s := State.construct small
    s.mem.wf ∧ s.config.memSize < [1, 2, 3, 4, (5 : Byte)].length ∧ [1, 2, 3, (4 : Byte)].length ≤ s.config.memSize ∧
    s.st = .ready ∧ s.start.st ≠ .ready := by decide

theorem witness_SnapshotShowsPcBytesRegisters : (core [] 0 254 []).pc + 1 < (core [] 0 254 []).config.memSize ∧
    (core [] 0 254 []).config.memSize ≤ (core [] 0 254 []).pc + 2 := by decide

end Sys2Proof.Machine.Tests
end

/-!
SUPPORT. The bytes a Step can fetch: the byte-by-byte fetch of spec/40_engine_cycle.md R62 to R64 is the decoding of
the bytes at `pc` that are inside Memory.
-/

namespace Sys2Proof.Machine

theorem codeBytes_none {s : State} (h : s.config.memSize ≤ s.pc) : s.codeBytes = [] := by
  simp [State.codeBytes, h, show s.config.memSize ≤ s.pc + 1 by omega, show s.config.memSize ≤ s.pc + 2 by omega]

theorem codeBytes_one {s : State} (h : s.pc < s.config.memSize) (h1 : s.config.memSize ≤ s.pc + 1) :
    s.codeBytes = [s.byteAt s.pc] := by
  simp [State.codeBytes, h, h1, show s.config.memSize ≤ s.pc + 2 by omega]

theorem codeBytes_two {s : State} (h1 : s.pc + 1 < s.config.memSize) (h2 : s.config.memSize ≤ s.pc + 2) :
    s.codeBytes = [s.byteAt s.pc, s.byteAt (s.pc + 1)] := by
  simp [State.codeBytes, h1, h2, show s.pc < s.config.memSize by omega]

theorem codeBytes_three {s : State} (h2 : s.pc + 2 < s.config.memSize) :
    s.codeBytes = [s.byteAt s.pc, s.byteAt (s.pc + 1), s.byteAt (s.pc + 2)] := by
  simp [State.codeBytes, h2, show s.pc < s.config.memSize by omega, show s.pc + 1 < s.config.memSize by omega]

theorem codeBytes_eq_cons {s : State} (h : s.pc < s.config.memSize) : ∃ rest, s.codeBytes = s.byteAt s.pc :: rest := by
  simp [State.codeBytes, h]

theorem codeBytes_eq_cons_cons {s : State} (h1 : s.pc + 1 < s.config.memSize) :
    ∃ rest, s.codeBytes = s.byteAt s.pc :: s.byteAt (s.pc + 1) :: rest := by
  simp [State.codeBytes, h1, show s.pc < s.config.memSize by omega]

theorem nops_cases {c : Config} {op : Byte} {shape : Shape} (h : decodeShape c op = .ok shape) :
    shape.nops = 0 ∨ shape.nops = 1 ∨ shape.nops = 2 := by
  have := (decodeShape_encode h 0 0).2.2
  omega

/-- The fault a failed decoding stands for: a byte that is not there is one past the end of Memory. -/
def decodeFault : DecodeError → FaultReason
  | .illegalOpcode _ => .illegalOpcode
  | .missingOpcode => .outOfRange
  | .missingOperand => .outOfRange

/-- What the engine takes from a decoding: the instruction, or the fault. -/
def decodedInstr : Except DecodeError (Instr × List Byte) → Except FaultReason Instr
  | .ok (i, _) => .ok i
  | .error e => .error (decodeFault e)

/-- A fetch is the decoding of the bytes at `pc`, split by the four things a fetch can do and, on an accepted opcode, by
the number of its operands. -/
theorem fetch_eq_decodedInstr (s : State) : fetch s = decodedInstr (decode s.config s.codeBytes) := by
  rcases fetch_cases s with ⟨h, e⟩ | ⟨h, ⟨err, hd⟩, e⟩ | ⟨shape, h, hd, hn, e⟩ | ⟨shape, hd, hn, e⟩
  · rw [e, codeBytes_none h]
    rfl
  · obtain rfl := decodeShape_eq_error hd
    obtain ⟨rest, hb⟩ := codeBytes_eq_cons h
    simp [e, hb, decode, hd, decodedInstr, decodeFault]
  · rcases nops_cases hd with h0 | h1 | h2
    · omega
    · simp [e, codeBytes_one h (h1 ▸ hn), decode, hd, h1, decodedInstr, decodeFault]
    · rcases Nat.lt_or_ge (s.pc + 1) s.config.memSize with hm | hm
      · simp [e, codeBytes_two hm (h2 ▸ hn), decode, hd, h2, decodedInstr, decodeFault]
      · simp [e, codeBytes_one h hm, decode, hd, h2, decodedInstr, decodeFault]
  · rcases nops_cases hd with h0 | h1 | h2
    · obtain ⟨rest, hb⟩ := codeBytes_eq_cons (show s.pc < s.config.memSize by omega)
      simp [e, hb, decode, hd, h0, decodedInstr]
    · obtain ⟨rest, hb⟩ := codeBytes_eq_cons_cons (h1 ▸ hn)
      simp [e, hb, decode, hd, h1, decodedInstr]
    · simp [e, codeBytes_three (h2 ▸ hn), decode, hd, h2, decodedInstr]

theorem fetch_eq_ok_iff_decode {s : State} {i : Instr} :
    fetch s = .ok i ↔ ∃ rest, decode s.config s.codeBytes = .ok (i, rest) := by
  rw [fetch_eq_decodedInstr]
  cases decode s.config s.codeBytes with
  | error e => simp [decodedInstr]
  | ok p => simp [decodedInstr, Prod.ext_iff]

/-! ### The step of a machine that is not in a terminal state -/

theorem start_eq_self {s : State} (h : s.st = .running) : s.start = s := by
  cases s
  cases h
  rfl

/-- Outside the terminal states a step is a Step of the machine in `Running` (spec/40_engine_cycle.md R60, R69). -/
theorem step_eq_engineStep_start {s : State} (h : s.st.terminal = false) : step s = engineStep s.start := by
  cases hst : s.st with
  | ready => exact step_ready hst
  | running => rw [step_running hst, start_eq_self hst]
  | halted => simp [hst, EngineState.terminal] at h
  | faulted r => simp [hst, EngineState.terminal] at h

theorem step_terminal {s : State} (h : s.st.terminal = true) : step s = .next s := by
  cases hst : s.st with
  | ready => simp [hst, EngineState.terminal] at h
  | running => simp [hst, EngineState.terminal] at h
  | halted => exact step_halted hst
  | faulted r => exact step_faulted hst

/-- Everything a step can do, by the instruction at `pc`: nothing, in a terminal state; a fault of the fetch; or the effect
of the fetched instruction. -/
theorem step_cases {s t : State} (h : step s = .next t) :
    t = s ∨ (∃ r, t = s.takeFault r) ∨ ∃ i, fetch s = .ok i ∧ Effect i s.start t := by
  cases hs : s.st.terminal with
  | true =>
    rw [step_terminal hs] at h
    cases h
    exact .inl rfl
  | false =>
    rw [step_eq_engineStep_start hs] at h
    rcases engineStep_next h with ⟨r, -, -, ht⟩ | hi
    · exact .inr (.inl ⟨r, ht⟩)
    · exact .inr (.inr hi)

end Sys2Proof.Machine

/-!
SUPPORT. What an effect leaves of the flags, the output, the parameters and the invariant.
-/

namespace Sys2Proof.Machine

theorem Effect.config {i : Instr} {s t : State} (h : Effect i s t) : t.config = s.config := by
  cases h <;> rfl

theorem Effect.fl {i : Instr} {s t : State} (h : Effect i s t) :
    t.fl = s.fl ∨ (∃ ra rb, i = .cmp ra rb) ∧ flagsLegal t.fl := by
  cases h with
  | registers rf p hf hi hp => exact hf
  | fault r hr => exact .inl rfl
  | halt hi => exact .inl rfl
  | store b p hl hn hi hp => exact .inl rfl
  | output ra a hi ha => exact .inl rfl

theorem Effect.out {i : Instr} {s t : State} (h : Effect i s t) :
    t.out = s.out ∨ ∃ ra a, i = .prn ra ∧ Names ra a ∧ t.out = s.out ++ [s.reg a] := by
  cases h with
  | output ra a hi ha => exact .inr ⟨ra, a, hi, ha, rfl⟩
  | fault r hr => exact .inl rfl
  | halt hi => exact .inl rfl
  | registers rf p hf hi hp => exact .inl rfl
  | store b p hl hn hi hp => exact .inl rfl

/-- Only a PUSH or a CALL stores, inside the address space. -/
theorem Effect.mem {i : Instr} {s t : State} (h : Effect i s t) :
    t.mem = s.mem ∨ s.pushAddr < s.config.memSize ∧ ∃ b, t.mem = s.mem.setByte s.pushAddr b := by
  cases h with
  | store b p hl hn hi hp => exact .inr ⟨hn, b, rfl⟩
  | fault r hr => exact .inl rfl
  | halt hi => exact .inl rfl
  | registers rf p hf hi hp => exact .inl rfl
  | output ra a hi ha => exact .inl rfl

theorem Effect.pc {i : Instr} {s t : State} (h : Effect i s t) : t.pc = s.pc ∨ NextPc i s t.pc := by
  cases h with
  | fault r hr => exact .inl rfl
  | halt hi => exact .inl rfl
  | registers rf p hf hi hp => exact .inr hp
  | store b p hl hn hi hp => exact .inr hp
  | output ra a hi ha => subst hi; exact .inr (.inr rfl)

/-- The effect of an instruction that lies inside Memory keeps the invariant: a store is inside the address space and in
canonical form, and `pc` is a byte or the address after the instruction, at most `N`. -/
theorem Effect.inv {i : Instr} {s t : State} (h : Effect i s t) (hs : s.Inv)
    (hi : s.pc + (encode i).length ≤ s.config.memSize) : t.Inv := by
  obtain ⟨hconfig, hmem, hbounds, hpc, hflags⟩ := hs
  have memory : t.mem.wf ∧ t.mem.below s.config.memSize := by
    rcases h.mem with e | ⟨ha, b, e⟩ <;> rw [e]
    · exact ⟨hmem, hbounds⟩
    · exact ⟨Memory.wf_setByte hmem _ b, Memory.below_setByte hbounds ha b⟩
  have pc : t.pc ≤ 256 := by
    rcases h.pc with e | hp | e
    · exact e ▸ hpc
    · exact hp.trans (by decide)
    · exact e ▸ hi.trans hconfig.2
  have flags : flagsLegal t.fl := by
    rcases h.fl with e | ⟨-, hf⟩
    · exact e ▸ hflags
    · exact hf
  exact ⟨h.config ▸ hconfig, memory.1, h.config ▸ memory.2, pc, flags⟩

/-- The engine state is no part of the invariant. -/
theorem State.Inv.withEngineState {s : State} (h : s.Inv) (e : EngineState) : ({ s with st := e } : State).Inv :=
  ⟨h.config, h.memory, h.bounds, h.pc, h.flags⟩

/-- The invariant is kept by every step, and no parameter changes. -/
theorem step_keeps_inv {s t : State} (hs : s.Inv) (h : step s = .next t) : t.Inv ∧ t.config = s.config := by
  rcases step_cases h with rfl | ⟨r, rfl⟩ | ⟨i, hf, he⟩
  · exact ⟨hs, rfl⟩
  · exact ⟨hs.withEngineState _, rfl⟩
  · exact ⟨he.inv (hs.withEngineState _) (fetch_eq_ok hf).2.1, he.config⟩

theorem construct_inv {c : Config} (hc : c.wf) : (State.construct c).Inv :=
  ⟨hc, ⟨.nil, by simp [State.construct]⟩, by simp [State.construct], Nat.zero_le _, .inl rfl⟩

/-- Settles O50: what a step does is nothing, a fault, or one of the effects of the fetched instruction, and each keeps
the invariant. -/
theorem stepKeepsInvariant : Obligations.StepKeepsInvariant :=
  fun _ _ => step_keeps_inv

/-- Settles O49: memory is empty, `pc` and `FL` are 0, and the parameters are in bounds by hypothesis. -/
theorem invariantAtReset : Obligations.InvariantAtReset :=
  ⟨fun _ => construct_inv, construct_inv (by decide)⟩

end Sys2Proof.Machine

/-!
SUPPORT. What one instruction does, as a relation with one rule per outcome: the faults it raises and the state in which it
completes. `exec_iff` says that the two relations are `exec`; the proofs below split by their rules.
-/

namespace Sys2Proof.Machine

/-- The instruction raises the reason in the state: a register operand above 7 first (spec/10_state.md R13), then the
faults of the Stack Manager (spec/42_stack.md R85, R86). -/
inductive Raises : Instr → State → FaultReason → Prop where
  | registerAbove {i : Instr} {s : State} {r : Byte} (hr : r ∈ i.registerOperands) (h : 7 < r.toNat) :
      Raises i s .invalidRegister
  | pushOverflow {ra : Byte} {a : Fin 8} {s : State} (ha : Names ra a) (h : s.sp ≤ s.config.stackLimit) :
      Raises (.push ra) s .stackOverflow
  | pushOutOfRange {ra : Byte} {a : Fin 8} {s : State} (ha : Names ra a) (h : s.config.stackLimit < s.sp)
      (h' : s.config.memSize ≤ s.pushAddr) : Raises (.push ra) s .outOfRange
  | callOverflow {ra : Byte} {a : Fin 8} {s : State} (ha : Names ra a) (h : s.sp ≤ s.config.stackLimit) :
      Raises (.call ra) s .stackOverflow
  | callOutOfRange {ra : Byte} {a : Fin 8} {s : State} (ha : Names ra a) (h : s.config.stackLimit < s.sp)
      (h' : s.config.memSize ≤ s.pushAddr) : Raises (.call ra) s .outOfRange
  | popUnderflow {ra : Byte} {a : Fin 8} {s : State} (ha : Names ra a) (h : s.config.spInit ≤ s.sp) :
      Raises (.pop ra) s .stackUnderflow
  | retUnderflow {s : State} (h : s.config.spInit ≤ s.sp) : Raises .ret s .stackUnderflow

/-- The instruction completes, and the state in which it does. -/
inductive Completes : Instr → State → State → Prop where
  | hlt (s : State) : Completes .hlt s s.halt
  | ret {s : State} (h : s.sp < s.config.spInit) :
      Completes .ret s ((s.setReg spReg ((s.sp : Int) + 1)).setPc (s.byteAt s.sp).toNat)
  | push {ra : Byte} {a : Fin 8} {s : State} (ha : Names ra a) (h : s.config.stackLimit < s.sp)
      (h' : s.pushAddr < s.config.memSize) : Completes (.push ra) s
        (((s.setReg spReg s.pushAddr).setByte s.pushAddr (s.reg a)).setPc (s.pc + 2))
  | pop {ra : Byte} {a : Fin 8} {s : State} (ha : Names ra a) (h : s.sp < s.config.spInit) : Completes (.pop ra) s
        (((s.setReg spReg ((s.sp : Int) + 1)).setReg a (s.byteAt s.sp).toNat).setPc (s.pc + 2))
  | prn {ra : Byte} {a : Fin 8} (ha : Names ra a) (s : State) :
      Completes (.prn ra) s ((s.emit (s.reg a)).setPc (s.pc + 2))
  | call {ra : Byte} {a : Fin 8} {s : State} (ha : Names ra a) (h : s.config.stackLimit < s.sp)
      (h' : s.pushAddr < s.config.memSize) : Completes (.call ra) s
        (((s.setReg spReg s.pushAddr).setByte s.pushAddr (BitVec.ofNat 8 (s.pc + 2))).setPc (s.reg a).toNat)
  | jmp {ra : Byte} {a : Fin 8} (ha : Names ra a) (s : State) : Completes (.jmp ra) s (s.setPc (s.reg a).toNat)
  | jeq {ra : Byte} {a : Fin 8} (ha : Names ra a) (s : State) :
      Completes (.jeq ra) s (s.setPc (if s.flagEqual then (s.reg a).toNat else s.pc + 2))
  | jne {ra : Byte} {a : Fin 8} (ha : Names ra a) (s : State) :
      Completes (.jne ra) s (s.setPc (if s.flagEqual then s.pc + 2 else (s.reg a).toNat))
  | inc {ra : Byte} {a : Fin 8} (ha : Names ra a) (s : State) :
      Completes (.inc ra) s ((s.setRf (s.rf.write a ((s.reg a).toNat + 1))).setPc (s.pc + 2))
  | dec {ra : Byte} {a : Fin 8} (ha : Names ra a) (s : State) :
      Completes (.dec ra) s ((s.setRf (s.rf.write a ((s.reg a).toNat - 1))).setPc (s.pc + 2))
  | ldi {ra : Byte} {a : Fin 8} (ha : Names ra a) (imm : Byte) (s : State) :
      Completes (.ldi ra imm) s ((s.setReg a imm.toNat).setPc (s.pc + 3))
  | add {ra rb : Byte} {a b : Fin 8} (ha : Names ra a) (hb : Names rb b) (s : State) :
      Completes (.add ra rb) s ((s.setRf (s.rf.write a ((s.reg a).toNat + (s.reg b).toNat))).setPc (s.pc + 3))
  | mul {ra rb : Byte} {a b : Fin 8} (ha : Names ra a) (hb : Names rb b) (s : State) :
      Completes (.mul ra rb) s ((s.setRf (s.rf.write a ((s.reg a).toNat * (s.reg b).toNat))).setPc (s.pc + 3))
  | cmp {ra rb : Byte} {a b : Fin 8} (ha : Names ra a) (hb : Names rb b) (s : State) :
      Completes (.cmp ra rb) s ((s.setRf { s.rf with fl := compareFlags (s.reg a) (s.reg b) }).setPc (s.pc + 3))

/-! ### The relations are `exec` -/

theorem Raises.exec_eq {i : Instr} {s : State} {r : FaultReason} (h : Raises i s r) : exec i s = .next (s.takeFault r) := by
  cases h with
  | registerAbove hr h => exact exec_above hr h s
  | pushOverflow ha h => exact exec_push_overflow ha h
  | pushOutOfRange ha h h' => exact exec_push_outOfRange ha h h'
  | callOverflow ha h => exact exec_call_overflow ha h
  | callOutOfRange ha h h' => exact exec_call_outOfRange ha h h'
  | popUnderflow ha h => exact exec_pop_underflow ha h
  | retUnderflow h => exact exec_ret_underflow h

theorem Completes.exec_eq {i : Instr} {s t : State} (h : Completes i s t) : exec i s = .next t := by
  cases h with
  | hlt => exact exec_hlt_eq s
  | ret h => exact exec_ret_ok h
  | push ha h h' => exact exec_push_ok ha h h'
  | pop ha h => exact exec_pop_ok ha h
  | prn ha => exact exec_prn_ok ha s
  | call ha h h' => exact exec_call_ok ha h h'
  | jmp ha => exact exec_jmp_ok ha s
  | jeq ha => exact exec_jeq_ok ha s
  | jne ha => exact exec_jne_ok ha s
  | inc ha => exact exec_inc_ok ha s
  | dec ha => exact exec_dec_ok ha s
  | ldi ha imm => exact exec_ldi_ok ha imm s
  | add ha hb => exact exec_add_ok ha hb s
  | mul ha hb => exact exec_mul_ok ha hb s
  | cmp ha hb => exact exec_cmp_ok ha hb s

/-- An instruction raises a reason, or all its register operands name registers. -/
theorem raises_or_named (i : Instr) (s : State) :
    Raises i s .invalidRegister ∨ ∀ r ∈ i.registerOperands, ∃ a, Names r a := by
  by_cases h : ∃ r ∈ i.registerOperands, 7 < r.toNat
  · obtain ⟨r, hr, h7⟩ := h
    exact .inl (.registerAbove hr h7)
  · exact .inr fun r hr => (names_or_above r).resolve_right fun h7 => h ⟨r, hr, h7⟩

/-- In every state an instruction raises a reason or completes. -/
theorem raises_or_completes (i : Instr) (s : State) : (∃ r, Raises i s r) ∨ ∃ t, Completes i s t := by
  rcases raises_or_named i s with h | named
  · exact .inl ⟨_, h⟩
  have pushes : s.sp ≤ s.config.stackLimit ∨
      s.config.stackLimit < s.sp ∧ (s.config.memSize ≤ s.pushAddr ∨ s.pushAddr < s.config.memSize) :=
    (le_or_gt _ _).imp id fun h => ⟨h, le_or_gt _ _⟩
  have pops : s.config.spInit ≤ s.sp ∨ s.sp < s.config.spInit := le_or_gt _ _
  cases i with
  | hlt => exact .inr ⟨_, .hlt s⟩
  | ret =>
    rcases pops with h | h
    · exact .inl ⟨_, .retUnderflow h⟩
    · exact .inr ⟨_, .ret h⟩
  | push ra =>
    obtain ⟨a, ha⟩ := named ra List.mem_cons_self
    rcases pushes with h | ⟨h, h' | h'⟩
    · exact .inl ⟨_, .pushOverflow ha h⟩
    · exact .inl ⟨_, .pushOutOfRange ha h h'⟩
    · exact .inr ⟨_, .push ha h h'⟩
  | pop ra =>
    obtain ⟨a, ha⟩ := named ra List.mem_cons_self
    rcases pops with h | h
    · exact .inl ⟨_, .popUnderflow ha h⟩
    · exact .inr ⟨_, .pop ha h⟩
  | prn ra =>
    obtain ⟨a, ha⟩ := named ra List.mem_cons_self
    exact .inr ⟨_, .prn ha s⟩
  | call ra =>
    obtain ⟨a, ha⟩ := named ra List.mem_cons_self
    rcases pushes with h | ⟨h, h' | h'⟩
    · exact .inl ⟨_, .callOverflow ha h⟩
    · exact .inl ⟨_, .callOutOfRange ha h h'⟩
    · exact .inr ⟨_, .call ha h h'⟩
  | jmp ra =>
    obtain ⟨a, ha⟩ := named ra List.mem_cons_self
    exact .inr ⟨_, .jmp ha s⟩
  | jeq ra =>
    obtain ⟨a, ha⟩ := named ra List.mem_cons_self
    exact .inr ⟨_, .jeq ha s⟩
  | jne ra =>
    obtain ⟨a, ha⟩ := named ra List.mem_cons_self
    exact .inr ⟨_, .jne ha s⟩
  | inc ra =>
    obtain ⟨a, ha⟩ := named ra List.mem_cons_self
    exact .inr ⟨_, .inc ha s⟩
  | dec ra =>
    obtain ⟨a, ha⟩ := named ra List.mem_cons_self
    exact .inr ⟨_, .dec ha s⟩
  | ldi ra imm =>
    obtain ⟨a, ha⟩ := named ra List.mem_cons_self
    exact .inr ⟨_, .ldi ha imm s⟩
  | add ra rb =>
    obtain ⟨a, ha⟩ := named ra List.mem_cons_self
    obtain ⟨b, hb⟩ := named rb (List.mem_cons_of_mem _ List.mem_cons_self)
    exact .inr ⟨_, .add ha hb s⟩
  | mul ra rb =>
    obtain ⟨a, ha⟩ := named ra List.mem_cons_self
    obtain ⟨b, hb⟩ := named rb (List.mem_cons_of_mem _ List.mem_cons_self)
    exact .inr ⟨_, .mul ha hb s⟩
  | cmp ra rb =>
    obtain ⟨a, ha⟩ := named ra List.mem_cons_self
    obtain ⟨b, hb⟩ := named rb (List.mem_cons_of_mem _ List.mem_cons_self)
    exact .inr ⟨_, .cmp ha hb s⟩

/-- Executing an instruction takes a fault it raises or ends where it completes, and nothing else. -/
theorem exec_iff {i : Instr} {s t : State} :
    exec i s = .next t ↔ (∃ r, Raises i s r ∧ t = s.takeFault r) ∨ Completes i s t := by
  constructor
  · intro h
    rcases raises_or_completes i s with ⟨r, hr⟩ | ⟨u, hu⟩
    · rw [hr.exec_eq] at h
      cases h
      exact .inl ⟨r, hr, rfl⟩
    · rw [hu.exec_eq] at h
      cases h
      exact .inr hu
  · rintro (⟨r, hr, rfl⟩ | ht)
    · exact hr.exec_eq
    · exact ht.exec_eq

/-- An instruction that completes leaves the engine state, but for HLT. -/
theorem Completes.st {i : Instr} {s t : State} (h : Completes i s t) : t.st = s.st ∨ i = .hlt ∧ t.st = .halted := by
  cases h with
  | hlt => exact .inr ⟨rfl, rfl⟩
  | _ => exact .inl rfl

/-- A running machine whose instruction completes is not faulted. -/
theorem Completes.not_faulted {i : Instr} {s t : State} (h : Completes i s t) (hs : s.st = .running) (r : FaultReason) :
    t.st ≠ .faulted r := by
  rcases h.st with e | ⟨-, e⟩ <;> simp [e, hs]

/-- `InvalidRegister` is raised for a register operand above 7 only. -/
theorem Raises.register_above {i : Instr} {s : State} (h : Raises i s .invalidRegister) :
    ∃ r ∈ i.registerOperands, 7 < r.toNat := by
  cases h with
  | registerAbove hr h => exact ⟨_, hr, h⟩

/-- A running machine that ends an instruction in a fault is one whose instruction raised it. -/
theorem exec_faulted {i : Instr} {s t : State} (hs : s.st = .running) (h : exec i s = .next t) {r : FaultReason}
    (ht : t.st = .faulted r) : Raises i s r ∧ t = s.takeFault r := by
  rcases exec_iff.mp h with ⟨r', hr, rfl⟩ | hc
  · cases ht
    exact ⟨hr, rfl⟩
  · exact absurd ht (hc.not_faulted hs r)

/-- Settles O17: an operand above 7 is checked by every instruction, and it is the one cause of the fault. -/
theorem invalidRegisterBeforeAnyEffect : Obligations.InvalidRegisterBeforeAnyEffect :=
  ⟨fun _ s ⟨_, hr, h⟩ => exec_above hr h s, fun _ _ _ hs h ht => (exec_faulted hs h ht).1.register_above⟩

end Sys2Proof.Machine

/-!
SUPPORT. What no instruction reads: `FL` but for `FL.E` (spec/10_state.md R19) and `OUT` (R21). A machine with another
`FL`, its bit 0 the same, and another `OUT` takes the same steps.
-/

namespace Sys2Proof.Machine

/-- The state with another `FL` and another output stream in their place. -/
def State.withUnread (s : State) (fl : Byte) (out : List Byte) : State :=
  { s with rf := { s.rf with fl := fl }, out := out }

/-- From `s` to `t`, `run` writes `FL` and appends to `OUT` without reading more of them than `FL.E`: `written` is what it
writes to `FL`, if anything, `emitted` is what it appends to `OUT`, and with any `FL` of the same bit 0 and any `OUT` it
does the same. -/
def IgnoresUnread (run : State → Outcome) (s t : State) : Prop :=
  ∃ (written : Option Byte) (emitted : List Byte), t.fl = written.getD s.fl ∧ t.out = s.out ++ emitted ∧
    ∀ fl out, fl.getLsbD 0 = s.flagEqual →
      run (s.withUnread fl out) = .next (t.withUnread (written.getD fl) (out ++ emitted))

/-- The case of a run that leaves both as they are. -/
theorem IgnoresUnread.of_kept {run : State → Outcome} {s t : State} (hf : t.fl = s.fl) (ho : t.out = s.out)
    (h : ∀ fl out, fl.getLsbD 0 = s.flagEqual → run (s.withUnread fl out) = .next (t.withUnread fl out)) :
    IgnoresUnread run s t :=
  ⟨none, [], hf, by simp [ho], fun fl out he => by simpa using h fl out he⟩

theorem Raises.withUnread {i : Instr} {s : State} {r : FaultReason} (h : Raises i s r) (fl : Byte) (out : List Byte) :
    Raises i (s.withUnread fl out) r := by
  cases h with
  | registerAbove hr h => exact .registerAbove hr h
  | pushOverflow ha h => exact .pushOverflow ha h
  | pushOutOfRange ha h h' => exact .pushOutOfRange ha h h'
  | callOverflow ha h => exact .callOverflow ha h
  | callOutOfRange ha h h' => exact .callOutOfRange ha h h'
  | popUnderflow ha h => exact .popUnderflow ha h
  | retUnderflow h => exact .retUnderflow h

theorem Completes.ignoresUnread {i : Instr} {s t : State} (h : Completes i s t) : IgnoresUnread (exec i) s t := by
  cases h with
  | hlt => exact .of_kept rfl rfl fun fl out _ => exec_hlt_eq (s.withUnread fl out)
  | ret h => exact .of_kept rfl rfl fun fl out _ => exec_ret_ok (s := s.withUnread fl out) h
  | push ha h h' => exact .of_kept rfl rfl fun fl out _ => exec_push_ok (s := s.withUnread fl out) ha h h'
  | pop ha h => exact .of_kept rfl rfl fun fl out _ => exec_pop_ok (s := s.withUnread fl out) ha h
  | call ha h h' => exact .of_kept rfl rfl fun fl out _ => exec_call_ok (s := s.withUnread fl out) ha h h'
  | jmp ha => exact .of_kept rfl rfl fun fl out _ => exec_jmp_ok ha (s.withUnread fl out)
  | jeq ha =>
    refine .of_kept rfl rfl fun fl out he => ?_
    rw [← he]
    exact exec_jeq_ok ha (s.withUnread fl out)
  | jne ha =>
    refine .of_kept rfl rfl fun fl out he => ?_
    rw [← he]
    exact exec_jne_ok ha (s.withUnread fl out)
  | inc ha => exact .of_kept rfl rfl fun fl out _ => exec_inc_ok ha (s.withUnread fl out)
  | dec ha => exact .of_kept rfl rfl fun fl out _ => exec_dec_ok ha (s.withUnread fl out)
  | ldi ha imm => exact .of_kept rfl rfl fun fl out _ => exec_ldi_ok ha imm (s.withUnread fl out)
  | add ha hb => exact .of_kept rfl rfl fun fl out _ => exec_add_ok ha hb (s.withUnread fl out)
  | mul ha hb => exact .of_kept rfl rfl fun fl out _ => exec_mul_ok ha hb (s.withUnread fl out)
  | prn ha => exact ⟨none, [_], rfl, rfl, fun fl out _ => exec_prn_ok ha (s.withUnread fl out)⟩
  | cmp ha hb =>
    refine ⟨some _, [], rfl, (List.append_nil _).symm, fun fl out _ => ?_⟩
    rw [List.append_nil]
    exact exec_cmp_ok ha hb (s.withUnread fl out)

theorem exec_ignoresUnread {i : Instr} {s t : State} (h : exec i s = .next t) : IgnoresUnread (exec i) s t := by
  rcases exec_iff.mp h with ⟨r, hr, rfl⟩ | hc
  · exact .of_kept rfl rfl fun fl out _ => (hr.withUnread fl out).exec_eq
  · exact hc.ignoresUnread

theorem fetch_withUnread (s : State) (fl : Byte) (out : List Byte) : fetch (s.withUnread fl out) = fetch s := rfl

theorem engineStep_ignoresUnread {s t : State} (h : engineStep s = .next t) : IgnoresUnread engineStep s t := by
  cases hf : fetch s with
  | error r =>
    rw [engineStep_error hf] at h
    cases h
    exact .of_kept rfl rfl fun fl out _ => engineStep_error (s := s.withUnread fl out) hf
  | ok i =>
    rw [engineStep_ok hf] at h
    obtain ⟨written, emitted, hfl, hout, hrun⟩ := exec_ignoresUnread h
    exact ⟨written, emitted, hfl, hout, fun fl out he =>
      (engineStep_ok (s := s.withUnread fl out) hf).trans (hrun fl out he)⟩

theorem step_ignoresUnread {s t : State} (h : step s = .next t) : IgnoresUnread step s t := by
  cases hs : s.st.terminal with
  | true =>
    rw [step_terminal hs] at h
    cases h
    exact .of_kept rfl rfl fun fl out _ => step_terminal (s := s.withUnread fl out) hs
  | false =>
    rw [step_eq_engineStep_start hs] at h
    obtain ⟨written, emitted, hfl, hout, hrun⟩ := engineStep_ignoresUnread h
    exact ⟨written, emitted, hfl, hout, fun fl out he =>
      (step_eq_engineStep_start (s := s.withUnread fl out) hs).trans (hrun fl out he)⟩

/-- A state that differs from `s` in unread flags only is `s` with another `FL`. -/
theorem SameButUnreadFlags.eq_withUnread {s u : State} (h : SameButUnreadFlags s u) : u = s.withUnread u.fl s.out := by
  obtain ⟨hc, hm, hx, hp, hst, ho, -⟩ := h
  obtain ⟨config, mem, ⟨x, fl⟩, pc, st, out⟩ := u
  subst hc hm hx hp hst ho
  rfl

/-- Settles O42: the other state is the first with another `FL` of the same bit 0, and a step reads no more of `FL`. -/
theorem unreadFlagsNeverMatter : Obligations.UnreadFlagsNeverMatter := by
  intro s u t hsu h
  have hu : u = s.withUnread u.fl s.out := hsu.eq_withUnread
  obtain ⟨-, -, -, -, -, -, he⟩ := hsu
  obtain ⟨written, emitted, hfl, hout, hrun⟩ := step_ignoresUnread h
  refine ⟨t.withUnread (written.getD u.fl) (s.out ++ emitted), (congrArg step hu).trans (hrun u.fl s.out he),
    rfl, rfl, rfl, rfl, rfl, hout.symm, ?_⟩
  change (written.getD u.fl).getLsbD 0 = t.fl.getLsbD 0
  rw [hfl]
  cases written with
  | none => exact he
  | some w => rfl

/-- Settles O45: a step of the state with another `OUT`, its `FL` kept, ends with the same `FL` and appends the same. -/
theorem outputIsNeverRead : Obligations.OutputIsNeverRead := by
  intro s t o h
  obtain ⟨written, emitted, hfl, hout, hrun⟩ := step_ignoresUnread h
  have hs : step (s.withUnread s.fl o) = .next (t.withUnread t.fl (o ++ emitted)) := hfl ▸ hrun s.fl o rfl
  exact ⟨emitted, hout, hs⟩

end Sys2Proof.Machine

/-!
SUPPORT. What a step does to `pc` (spec/10_state.md R17), to `FL` (R19) and to `OUT` (R21), by the instruction at `pc`.
-/

namespace Sys2Proof.Machine

/-- A step of a running machine takes a fault, which leaves all but the engine state, or completes the fetched instruction. -/
theorem step_running_cases {s t : State} (hs : s.st = .running) (h : step s = .next t) :
    (∃ r, t = s.takeFault r) ∨ ∃ i, fetch s = .ok i ∧ Completes i s t := by
  rw [step_running hs] at h
  cases hf : fetch s with
  | error r =>
    rw [engineStep_error hf] at h
    cases h
    exact .inl ⟨r, rfl⟩
  | ok i =>
    rw [engineStep_ok hf] at h
    rcases exec_iff.mp h with ⟨r, -, ht⟩ | hc
    · exact .inl ⟨r, ht⟩
    · exact .inr ⟨i, rfl, hc⟩

/-- Settles O39: a step that faults leaves `pc`, and the state in which each instruction completes gives the row of R17. -/
theorem programCounterAfterStep : Obligations.ProgramCounterAfterStep := by
  intro s t hs h
  rcases step_running_cases hs h with ⟨r, rfl⟩ | ⟨i, hf, hc⟩
  · exact ⟨fun _ _ => rfl, fun hn => absurd rfl (hn r)⟩
  refine ⟨fun r hr => absurd hr (hc.not_faulted hs r), fun _ j rest hd => ?_⟩
  obtain rfl : i = j := Except.ok.inj (hf.symm.trans (fetch_eq_ok_iff_decode.mpr ⟨rest, hd⟩))
  cases hc with
  | jmp ha | jeq ha | jne ha => exact fun b hb => ha.unique hb ▸ rfl
  | call ha hl hn =>
    refine ⟨fun b hb => ha.unique hb ▸ rfl, fun hm => ?_⟩
    have stored : ((s.setReg spReg s.pushAddr).setByte s.pushAddr (BitVec.ofNat 8 (s.pc + 2))).byteAt s.pushAddr =
        BitVec.ofNat 8 (s.pc + 2) := (setByte_byteAt hm _ _ _).trans (if_pos rfl)
    simp [stored]
  | _ => rfl

/-- A compare finds one of equal, greater and less (spec/41_alu.md R80). -/
theorem compareFlags_cases (u v : Byte) :
    compareFlags u v = flagE ∨ compareFlags u v = flagG ∨ compareFlags u v = flagL := by
  unfold compareFlags
  split
  · exact .inl rfl
  · split
    · exact .inr (.inl rfl)
    · exact .inr (.inr rfl)

theorem compareFlags_one_set (u v : Byte) : ((compareFlags u v).getLsbD 0).toNat +
    ((compareFlags u v).getLsbD 1).toNat + ((compareFlags u v).getLsbD 2).toNat = 1 := by
  rcases compareFlags_cases u v with h | h | h <;> rw [h] <;> rfl

/-- The bits 7:3 of `FL` are 0 after a compare, its value being below 8 (spec/10_state.md R18). -/
theorem compareFlags_high_bits (u v : Byte) {k : Nat} (hk : 3 ≤ k) : (compareFlags u v).getLsbD k = false := by
  have hlt : (compareFlags u v).toNat < 2 ^ 3 := by
    rcases compareFlags_cases u v with h | h | h <;> rw [h] <;> decide
  exact Nat.testBit_lt_two_pow (hlt.trans_le (Nat.pow_le_pow_right (by decide) hk))

/-- Settles O41: of the effects only CMP's writes `FL`, and it writes one of the three flags. -/
theorem flagsWrittenByCompareOnly : Obligations.FlagsWrittenByCompareOnly := by
  refine ⟨fun s t h hne => ?_, fun s t ra rb a b ha hb h => ?_⟩
  · rcases step_cases h with rfl | ⟨r, rfl⟩ | ⟨i, hf, he⟩
    · exact absurd rfl hne
    · exact absurd rfl hne
    · obtain ⟨⟨ra, rb, rfl⟩, -⟩ := he.fl.resolve_left hne
      exact ⟨ra, rb, fetch_eq_ok_iff_decode.mp hf⟩
  · rw [exec_cmp_ok ha hb] at h
    cases h
    exact ⟨compareFlags_one_set _ _, fun _ => compareFlags_high_bits _ _⟩

/-- Settles O44: of the effects only PRN's is an output, and it appends the value of its register. -/
theorem outputGrowsByPrnOnly : Obligations.OutputGrowsByPrnOnly := by
  intro s t h
  rcases step_cases h with rfl | ⟨r, rfl⟩ | ⟨i, hf, he⟩
  · exact .inl rfl
  · exact .inl rfl
  · rcases he.out with ho | ⟨ra, a, rfl, ha, ho⟩
    · exact .inl ho
    · obtain ⟨rest, hd⟩ := fetch_eq_ok_iff_decode.mp hf
      exact .inr ⟨ra, a, rest, hd, ha, ho⟩

end Sys2Proof.Machine

/-!
SUPPORT. Single pieces of state: a register write (spec/10_state.md R12), the reset values (R26), the snapshot (R27).
-/

namespace Sys2Proof.Machine

/-- The value of a number stored in a byte, negative numbers included (spec/10_state.md R12). -/
theorem toNat_ofInt_byte (v : Int) : ((BitVec.ofInt 8 v).toNat : Int) = v % 256 := by
  rw [BitVec.toNat_ofInt]
  omega

/-- Settles O16: the register holds the stored byte, and its value is the remainder. -/
theorem registerWriteWrapsModulo256 : Obligations.RegisterWriteWrapsModulo256 := by
  intro rf i v
  refine ⟨?_, fun k hk => read_write_ne rf v hk, write_fl rf i v⟩
  rw [read_write_same, toNat_ofInt_byte]

/-- Settles O48: memory lists no cell, and `SP_INIT` is 255 in the default core. -/
theorem resetValues : Obligations.ResetValues :=
  ⟨fun _ => rfl, by decide, rfl, rfl, rfl, rfl, rfl⟩

theorem snapshotByte_inside {s : State} {a : Nat} (h : a < s.config.memSize) : s.snapshotByte a = some (s.byteAt a) :=
  if_pos h

theorem snapshotByte_absent {s : State} {a : Nat} (h : s.config.memSize ≤ a) : s.snapshotByte a = none :=
  if_neg (Nat.not_lt.mpr h)

/-- Settles O53: each of the three bytes is `snapshotByte` at its address. -/
theorem snapshotShowsPcBytesRegisters : Obligations.SnapshotShowsPcBytesRegisters := by
  refine fun s => ⟨rfl, fun _ => rfl, fun k b hkb => ?_⟩
  have hb : b = s.snapshotByte (s.pc + k) := by
    simp only [List.mem_cons, List.not_mem_nil, or_false, Prod.mk.injEq] at hkb
    rcases hkb with ⟨rfl, rfl⟩ | ⟨rfl, rfl⟩ | ⟨rfl, rfl⟩ <;> rfl
  subst hb
  exact ⟨snapshotByte_inside, snapshotByte_absent⟩

end Sys2Proof.Machine

/-!
SUPPORT. Memory as seen from outside its list form: the two accesses (spec/20_memory.md R31, R32), the one store a step can
make (R30, R35), and the loader (R44), whose image load keeps whatever a single loader write keeps.
-/

namespace Sys2Proof.Machine

/-! ### Stores -/

/-- The one store of an instruction is at `x[7] - 1`: it happens above `STACK_LIMIT`, so `x[7]` is not 0 there. -/
theorem Effect.changed_byte {i : Instr} {s t : State} (h : Effect i s t) (hm : s.mem.wf) {a : Nat}
    (hne : t.byteAt a ≠ s.byteAt a) : a + 1 = s.sp ∧ ((∃ ra, i = .push ra) ∨ ∃ ra, i = .call ra) := by
  cases h with
  | store b p hl hn hi hp =>
    have ha : a = s.pushAddr := by
      by_contra hc
      exact hne ((setByte_byteAt (s := s.setReg spReg s.pushAddr) hm _ b a).trans (if_neg hc))
    exact ⟨by rw [ha, pushAddr_eq]; omega, hi⟩
  | fault | halt | registers | output => exact absurd rfl hne

/-- Settles O43: of the effects only the store of PUSH and CALL changes a byte. -/
theorem memoryWrittenByPushAndCallOnly : Obligations.MemoryWrittenByPushAndCallOnly := by
  intro s t a hm h hne
  rcases step_cases h with rfl | ⟨r, rfl⟩ | ⟨i, hf, he⟩
  · exact absurd rfl hne
  · exact absurd rfl hne
  obtain ⟨ha, hi⟩ := he.changed_byte hm hne
  obtain ⟨rest, hd⟩ := fetch_eq_ok_iff_decode.mp hf
  refine ⟨ha, ?_⟩
  rcases hi with ⟨ra, rfl⟩ | ⟨ra, rfl⟩
  · exact ⟨ra, rest, .inl hd⟩
  · exact ⟨ra, rest, .inr hd⟩

/-- Settles O18: the bound check is on the address as it stands. -/
theorem memReadNeverWraps : Obligations.MemReadNeverWraps :=
  fun _ _ => ⟨memRead_ok, memRead_error⟩

/-- Settles O19: inside the bounds a write is `setByte` of the value's low byte. -/
theorem memWriteTruncates : Obligations.MemWriteTruncates := by
  refine fun s addr v hm => ⟨fun h => ⟨_, memWrite_ok h v, ?_, fun c hc => ?_, rfl, rfl, rfl, rfl, rfl⟩,
    fun h => memWrite_error h v⟩
  · rw [setByte_byteAt hm, if_pos rfl, BitVec.toNat_ofNat]
  · rw [setByte_byteAt hm, if_neg hc]

/-! ### One loader write -/

theorem loadByte_ready {s : State} (hs : s.st = .ready) {a : Nat} (ha : a < s.config.memSize) (b : Byte) :
    s.loadByte a b = s.setByte a b := by
  simp [State.loadByte, hs, ha]

theorem loadByte_not_ready {s : State} (hs : s.st ≠ .ready) (a : Nat) (b : Byte) : s.loadByte a b = s := by
  cases h : s.st with
  | ready => exact absurd h hs
  | running | halted | faulted r => simp [State.loadByte, h]

/-- Everything a loader write can do: nothing, or a store inside the address space. -/
theorem loadByte_cases (s : State) (a : Nat) (b : Byte) :
    s.loadByte a b = s ∨ a < s.config.memSize ∧ s.loadByte a b = s.setByte a b := by
  by_cases hs : s.st = .ready
  · by_cases ha : a < s.config.memSize
    · exact .inr ⟨ha, loadByte_ready hs ha b⟩
    · exact .inl (by simp [State.loadByte, hs, ha])
  · exact .inl (loadByte_not_ready hs a b)

theorem State.Inv.setByte {s : State} (h : s.Inv) {a : Nat} (ha : a < s.config.memSize) (b : Byte) : (s.setByte a b).Inv :=
  ⟨h.config, Memory.wf_setByte h.memory a b, Memory.below_setByte h.bounds ha b, h.pc, h.flags⟩

theorem State.Inv.loadByte {s : State} (h : s.Inv) (a : Nat) (b : Byte) : (s.loadByte a b).Inv := by
  rcases loadByte_cases s a b with e | ⟨ha, e⟩ <;> rw [e]
  · exact h
  · exact h.setByte ha b

/-! ### The load of an image -/

/-- What every loader write keeps, a sequence of them keeps. -/
theorem loadFrom_keeps {P : State → Prop} (keep : ∀ s a b, P s → P (s.loadByte a b)) {s : State} (h : P s) (a : Nat)
    (image : List Byte) : P (s.loadFrom a image) := by
  induction image generalizing s a with
  | nil => exact h
  | cons b image ih => exact ih (keep s a b h) (a + 1)

theorem loadFrom_not_ready {s : State} (hs : s.st ≠ .ready) (a : Nat) (image : List Byte) : s.loadFrom a image = s :=
  loadFrom_keeps (P := (· = s)) (fun _ a b h => h ▸ loadByte_not_ready hs a b) rfl a image

/-- The loader writes memory and nothing else. -/
theorem loadFrom_frame (s : State) (a : Nat) (image : List Byte) : ∃ m, s.loadFrom a image = { s with mem := m } := by
  refine loadFrom_keeps (P := fun t => ∃ m, t = { s with mem := m }) ?_ ⟨s.mem, rfl⟩ a image
  rintro t a b ⟨m, rfl⟩
  rcases loadByte_cases { s with mem := m } a b with e | ⟨-, e⟩
  · exact ⟨m, e⟩
  · exact ⟨m.setByte a b, e⟩

/-- The bytes after a load that fits: below its first address as before, from there on the image's, past its end as
before. -/
theorem loadFrom_byteAt {s : State} (hs : s.st = .ready) (hm : s.mem.wf) {a : Nat} {image : List Byte}
    (hfit : a + image.length ≤ s.config.memSize) (c : Nat) :
    (s.loadFrom a image).byteAt c = if c < a then s.byteAt c else image[c - a]?.getD (s.byteAt c) := by
  induction image generalizing s a with
  | nil => simp [State.loadFrom]
  | cons b image ih =>
    rw [List.length_cons] at hfit
    have first : s.loadByte a b = s.setByte a b := loadByte_ready hs (by omega) b
    have rest := ih (s := s.setByte a b) hs (Memory.wf_setByte hm a b)
      (show a + 1 + image.length ≤ s.config.memSize by omega)
    rw [State.loadFrom, first, rest, setByte_byteAt hm]
    rcases Nat.lt_trichotomy c a with h | rfl | h
    · rw [if_pos (by omega), if_neg (by omega), if_pos h]
    · simp
    · rw [if_neg (by omega), if_neg (by omega), if_neg (by omega), show c - a = c - (a + 1) + 1 by omega,
        List.getElem?_cons_succ]

theorem loadImage_too_long {s : State} {image : List Byte} (h : s.config.memSize < image.length) :
    s.loadImage image = none := if_pos h

theorem loadImage_fits {s : State} {image : List Byte} (h : image.length ≤ s.config.memSize) :
    s.loadImage image = some (s.loadFrom 0 image) := if_neg (Nat.not_lt.mpr h)

theorem loadImage_eq_some {s t : State} {image : List Byte} :
    s.loadImage image = some t ↔ image.length ≤ s.config.memSize ∧ t = s.loadFrom 0 image := by
  rcases Nat.lt_or_ge s.config.memSize image.length with h | h
  · simp [loadImage_too_long h, Nat.not_le.mpr h]
  · simp [loadImage_fits h, h, eq_comm]

/-- Settles O51: a reset constructs the core again with its own parameters, and a load is a sequence of loader writes. -/
theorem hostOperationsKeepInvariant : Obligations.HostOperationsKeepInvariant := by
  refine fun s hs => ⟨construct_inv hs.config, hs.loadByte, fun image t h => ?_⟩
  obtain ⟨-, rfl⟩ := loadImage_eq_some.mp h
  exact loadFrom_keeps (fun _ a b h => h.loadByte a b) hs 0 image

/-- Settles O52: the bytes after the load of an image are those of `loadFrom_byteAt` from address 0. -/
theorem loadImagePlacesBytes : Obligations.LoadImagePlacesBytes := by
  refine fun s image hm => ⟨loadImage_too_long, fun hfit hs => ⟨_, loadImage_fits hfit, ?_⟩,
    fun hfit hs => (loadImage_fits hfit).trans (congrArg some (loadFrom_not_ready hs 0 image))⟩
  have bytes : ∀ c, (s.loadFrom 0 image).byteAt c = image[c]?.getD (s.byteAt c) :=
    loadFrom_byteAt hs hm (by rwa [Nat.zero_add])
  refine ⟨fun k b hb => by rw [bytes, hb, Option.getD_some],
    fun a ha => by rw [bytes, List.getElem?_eq_none ha, Option.getD_none], ?_⟩
  obtain ⟨m, frame⟩ := loadFrom_frame s 0 image
  rw [frame]
  exact ⟨rfl, rfl, rfl, rfl, rfl⟩

end Sys2Proof.Machine

/-!
SUPPORT. The Decoder and the encoder (spec/30_encoding.md R45 to R52): which opcode bytes are accepted, and as what; and
which bytes decode, and to what.
-/

namespace Sys2Proof

/-- The shape a row of the opcode table gives (spec/30_encoding.md R51). -/
def OpcodeRow.shape (row : OpcodeRow) : Shape := ⟨row.mnemonic, operandCount row.byte, row.isAlu, row.setsPc⟩

end Sys2Proof

namespace Sys2Proof.Machine

/-! ### The opcode table -/

theorem opcodeTable_byte_injective : ∀ row ∈ opcodeTable, ∀ row' ∈ opcodeTable, row.byte = row'.byte → row = row' := by
  decide

/-- A byte none of whose rows the core has is an illegal opcode. -/
theorem decodeShape_eq_error_of_absent {c : Config} {op : Byte}
    (h : ∀ row ∈ opcodeTable, row.byte = op → row.mnemonic.inTable c = false) :
    decodeShape c op = .error (.illegalOpcode op) := by
  cases hd : decodeShape c op with
  | error e => rw [decodeShape_eq_error hd]
  | ok shape =>
    obtain ⟨row, hrow, hbyte, hin, -⟩ := decodeShape_eq_ok hd
    simp [h row hrow hbyte] at hin

theorem decodeShape_eq_error_of_not_listed {c : Config} {op : Byte} (h : op ∉ opcodeTable.map OpcodeRow.byte) :
    decodeShape c op = .error (.illegalOpcode op) :=
  decodeShape_eq_error_of_absent fun _ hrow hbyte => absurd (List.mem_map.mpr ⟨_, hrow, hbyte⟩) h

/-- The Decoder accepts exactly the bytes of the rows the core has: a row of the core is found, since no other row has its
byte. -/
theorem decodeShape_eq_ok_iff {c : Config} {op : Byte} {shape : Shape} :
    decodeShape c op = .ok shape ↔
      ∃ row ∈ opcodeTable, row.mnemonic.inTable c = true ∧ (row.byte, row.shape) = (op, shape) := by
  constructor
  · intro hd
    obtain ⟨row, hrow, rfl, hin, rfl⟩ := decodeShape_eq_ok hd
    exact ⟨row, hrow, hin, rfl⟩
  · rintro ⟨row, hrow, hin, h⟩
    cases h
    cases hfind : opcodeTable.find? (fun r => r.byte == row.byte && r.mnemonic.inTable c) with
    | none => simpa [hin] using List.find?_eq_none.mp hfind row hrow
    | some row' =>
      have found := List.find?_some hfind
      simp only [Bool.and_eq_true, beq_iff_eq] at found
      obtain rfl := opcodeTable_byte_injective row' (List.mem_of_find?_eq_some hfind) row hrow found.1
      simp [decodeShape, hfind, OpcodeRow.shape]

theorem mnemonic_inTable_ls8 (m : Mnemonic) : m.inTable Config.ls8 = true := by cases m <;> rfl

theorem instr_inTable_ls8 (i : Instr) : i.inTable Config.ls8 = true := by cases i <;> rfl

/-- Settles O26: the fifteen shapes are those of the rows of the opcode table, and the default core has every row. -/
theorem decoderMatchesAllEightBits : Obligations.DecoderMatchesAllEightBits := by
  refine ⟨fun op shape => ?_, fun op h => decodeShape_eq_error_of_not_listed h⟩
  have rows : decodeShape Config.ls8 op = .ok shape ↔
      (op, shape) ∈ opcodeTable.map (fun row => (row.byte, row.shape)) := by
    simp only [decodeShape_eq_ok_iff, mnemonic_inTable_ls8, true_and, List.mem_map]
  exact rows

/-! ### Illegal opcodes -/

/-- An opcode byte the Decoder rejects faults wherever it stands: no operand byte is looked at. -/
theorem step_illegal {s : State} (hs : s.st = .running) (hpc : s.pc < s.config.memSize) {e : DecodeError}
    (hd : decodeShape s.config (s.byteAt s.pc) = .error e) : step s = .next (s.takeFault .illegalOpcode) :=
  (step_running hs).trans (engineStep_error (fetch_illegal hpc hd))

/-- Settles O27: the fifteen bytes are those of the opcode table, and none of them has bits 7:6 both set. -/
theorem illegalOpcodeBeforeOperands : Obligations.IllegalOpcodeBeforeOperands := by
  refine ⟨fun s hs hpc h => step_illegal hs hpc (decodeShape_eq_error_of_not_listed h), by decide +kernel, by decide,
    by decide, fun op hop h => ?_⟩
  have small : ∀ row ∈ opcodeTable, row.byte.toNat < 192 := by decide
  obtain ⟨row, hrow, rfl⟩ : ∃ row ∈ opcodeTable, row.byte = op := List.mem_map.mp h
  exact absurd (small row hrow) (Nat.not_lt.mpr hop)

/-- Settles O28: the rows of the two bytes are those of INC and DEC, which the core does not have. -/
theorem incDecBytesIllegalWhenAbsent : Obligations.IncDecBytesIllegalWhenAbsent := by
  intro s hs hc hpc h
  refine step_illegal hs hpc (decodeShape_eq_error_of_absent fun row hrow hbyte => ?_)
  have incDec : ∀ row ∈ opcodeTable, row.byte = 0x65 ∨ row.byte = 0x66 →
      row.mnemonic = .inc ∨ row.mnemonic = .dec := by decide
  rcases incDec row hrow (hbyte ▸ h) with hm | hm <;> rw [hm] <;> exact hc

/-! ### Whole instructions -/

theorem operandCount_eq_topTwoBits (op : Byte) : operandCount op = (op.extractLsb 7 6).toNat := by
  have := op.isLt
  simp only [operandCount, BitVec.extractLsb_toNat, Nat.shiftRight_eq_div_pow]
  omega

/-- Settles O29: the opcode byte of an encoding decodes, in the default core, to a shape with as many operands as the
encoding has operand bytes, and the Decoder takes that number from the top two bits. -/
theorem lengthFromTopTwoBits : Obligations.LengthFromTopTwoBits := by
  intro i
  obtain ⟨op, shape, hhead, hd, -, hlen⟩ := shape_of_encoding i Config.ls8 (instr_inTable_ls8 i)
  obtain ⟨rest, hrest⟩ := List.head?_eq_some_iff.mp hhead
  rw [hrest, List.length_cons, Nat.add_right_cancel_iff] at hlen
  have topBits : shape.nops = (op.extractLsb 7 6).toNat := by
    obtain ⟨row, -, -, -, rfl⟩ := decodeShape_eq_ok hd
    exact operandCount_eq_topTwoBits op
  have atMostTwo := (decodeShape_encode hd 0 0).2.2
  exact ⟨op, rest, hrest, hlen ▸ topBits, hlen ▸ atMostTwo⟩

/-- An instruction does not depend on an operand its opcode byte does not count. -/
theorem instr_of_counted_operands {c : Config} {op : Byte} {shape : Shape} (hd : decodeShape c op = .ok shape)
    (opA opB : Byte) : shape.mnemonic.instr opA opB =
      shape.mnemonic.instr (if 1 ≤ shape.nops then opA else 0) (if shape.nops = 2 then opB else 0) := by
  obtain ⟨row, hrow, rfl, -, rfl⟩ := decodeShape_eq_ok hd
  simp only [opcodeTable, List.mem_cons, List.not_mem_nil, or_false] at hrow
  rcases hrow with rfl | rfl | rfl | rfl | rfl | rfl | rfl | rfl | rfl | rfl | rfl | rfl | rfl | rfl | rfl <;> rfl

theorem exists_instr_operands (i : Instr) : ∃ opA opB, i = i.mnemonic.instr opA opB := by
  cases i with
  | hlt | ret => exact ⟨0, 0, rfl⟩
  | push ra | pop ra | prn ra | call ra | jmp ra | jeq ra | jne ra | inc ra | dec ra => exact ⟨ra, 0, rfl⟩
  | ldi ra rb | add ra rb | mul ra rb | cmp ra rb => exact ⟨ra, rb, rfl⟩

/-- An accepted opcode byte with the operand bytes it counts decodes to the instruction they make, split by how many
operands it counts. -/
theorem decode_of_operands {c : Config} {op : Byte} {shape : Shape} (hd : decodeShape c op = .ok shape)
    (opA opB : Byte) (rest : List Byte) :
    decode c (op :: [opA, opB].take shape.nops ++ rest) = .ok (shape.mnemonic.instr opA opB, rest) := by
  rw [instr_of_counted_operands hd]
  rcases nops_cases hd with h0 | h1 | h2
  · simp [decode, hd, h0]
  · simp [decode, hd, h1]
  · simp [decode, hd, h2]

/-- Bytes that decode are an accepted opcode byte, the operand bytes it counts, and the rest. -/
theorem decode_eq_ok {c : Config} {bytes rest : List Byte} {i : Instr} (h : decode c bytes = .ok (i, rest)) :
    ∃ op shape opA opB, decodeShape c op = .ok shape ∧ bytes = op :: [opA, opB].take shape.nops ++ rest ∧
      i = shape.mnemonic.instr opA opB := by
  cases bytes with
  | nil => cases h
  | cons op tail =>
    cases hd : decodeShape c op with
    | error e => simp [decode, hd] at h
    | ok shape =>
      simp only [decode, hd] at h
      split at h
      next h0 =>
        cases h
        exact ⟨op, shape, 0, 0, hd, by simp [h0], rfl⟩
      next opA _ h1 =>
        cases h
        exact ⟨op, shape, opA, 0, hd, by simp [h1], rfl⟩
      next opA opB _ h2 =>
        cases h
        exact ⟨op, shape, opA, opB, hd, by simp [h2], rfl⟩
      next => cases h

/-- Settles O30: the opcode byte of the encoding is accepted with the instruction's mnemonic, so the encoding is that byte
and the operand bytes it counts, and these decode to the instruction. -/
theorem decodeOfEncode : Obligations.DecodeOfEncode := by
  intro c i rest hin
  obtain ⟨op, shape, -, hd, hm, -⟩ := shape_of_encoding i c hin
  obtain ⟨opA, opB, hi⟩ := exists_instr_operands i
  rw [hi, ← hm, (decodeShape_encode hd opA opB).2.1]
  exact decode_of_operands hd opA opB rest

/-- Settles O31: what decodes is an accepted opcode byte with the operand bytes it counts, which is the encoding of the
instruction they make. -/
theorem encodeOfDecode : Obligations.EncodeOfDecode := by
  intro c bytes rest i h
  obtain ⟨op, shape, opA, opB, hd, rfl, rfl⟩ := decode_eq_ok h
  obtain ⟨hin, henc, -⟩ := decodeShape_encode hd opA opB
  exact ⟨by rw [henc], hin⟩

/-- Settles O32: the Decoder evaluated on fifteen fixed words. -/
theorem writtenOutWordsDecode : Obligations.WrittenOutWordsDecode := by
  unfold Obligations.WrittenOutWordsDecode
  decide

end Sys2Proof.Machine

/-!
SUPPORT. The engine cycle: the Step around the decoded instruction (spec/40_engine_cycle.md R61 to R64), the engine state
after it (R60, R67), and `run()` as repeated `tick()` (R68, R69).
-/

namespace Sys2Proof.Machine

/-! ### Fetch and decode -/

theorem fetch_start (s : State) : fetch s.start = fetch s := rfl

/-- The encoding of an instruction of the core, lying at `pc`, is fetched as that instruction. -/
theorem fetch_of_codeBytes {s : State} {i : Instr} {rest : List Byte} (hin : i.inTable s.config = true)
    (h : s.codeBytes = encode i ++ rest) : fetch s = .ok i :=
  fetch_eq_ok_iff_decode.mpr ⟨rest, h ▸ decodeOfEncode s.config i rest hin⟩

/-- Settles O34: `decodedInstr` reads each result of the decoding as the statement does. -/
theorem fetchAgreesWithDecode : Obligations.FetchAgreesWithDecode := by
  intro s
  rw [fetch_eq_decodedInstr]
  cases decode s.config s.codeBytes with
  | ok p => rfl
  | error e =>
    cases e with
    | illegalOpcode op | missingOpcode | missingOperand => rfl

/-- Settles O33: bytes that decode are fetched as the instruction they decode to, and a Step executes what it fetched. -/
theorem stepRunsDecodedInstruction : Obligations.StepRunsDecodedInstruction := by
  intro s i rest hd
  have fetched : fetch s = .ok i := fetch_eq_ok_iff_decode.mpr ⟨rest, hd⟩
  exact ⟨fun hs => (step_running hs).trans (engineStep_ok fetched),
    fun hs => (step_ready hs).trans (engineStep_ok ((fetch_start s).trans fetched))⟩

/-! ### The engine state after a step -/

/-- Outside the terminal states a step does not depend on whether the machine has started. -/
theorem step_start {s : State} (h : s.st.terminal = false) : step s.start = step s :=
  (step_running rfl).trans (step_eq_engineStep_start h).symm

theorem not_terminal_of_running_or_ready {s : State} (h : s.st = .running ∨ s.st = .ready) : s.st.terminal = false := by
  rcases h with h | h <;> rw [h] <;> rfl

theorem not_ready_of_terminal {s : State} (h : s.st.terminal = true) : s.st ≠ .ready := by
  intro hs
  rw [hs] at h
  cases h

theorem step_running_st {s t : State} (hs : s.st = .running) (h : step s = .next t) :
    t.st = .running ∨ t.st = .halted ∨ ∃ reason, t.st = .faulted reason := by
  rcases step_running_cases hs h with ⟨r, rfl⟩ | ⟨i, -, hc⟩
  · exact .inr (.inr ⟨r, rfl⟩)
  · rcases hc.st with e | ⟨-, e⟩
    · exact .inl (e.trans hs)
    · exact .inr (.inl e)

theorem step_running_not_ready {s t : State} (hs : s.st = .running) (h : step s = .next t) : t.st ≠ .ready := by
  rcases step_running_st hs h with e | e | ⟨r, e⟩ <;> simp [e]

/-- A Step halts the machine exactly when it fetched HLT. -/
theorem step_running_halted_iff {s t : State} (hs : s.st = .running) (h : step s = .next t) :
    t.st = .halted ↔ fetch s = .ok .hlt := by
  constructor
  · intro ht
    rcases step_running_cases hs h with ⟨r, rfl⟩ | ⟨i, hf, hc⟩
    · cases ht
    · rcases hc.st with e | ⟨rfl, -⟩
      · simp [ht, hs] at e
      · exact hf
  · intro hf
    rw [step_running hs, engineStep_ok hf, exec_hlt_eq] at h
    cases h
    rfl

/-- Settles O37: a step of a ready machine is one of the machine started; it ends by taking the fault in the state before
it, or it completes an instruction, and then it is not faulted. -/
theorem faultsArePrecise : Obligations.FaultsArePrecise := by
  intro s t reason hs h ht
  rw [← step_start (not_terminal_of_running_or_ready hs)] at h
  rcases step_running_cases rfl h with ⟨r, rfl⟩ | ⟨i, -, hc⟩
  · cases ht
    rfl
  · exact absurd ht (hc.not_faulted rfl reason)

/-! ### Runs and ticks -/

/-- In every state a step answers a next state. -/
theorem exists_step_next (s : State) : ∃ t, step s = .next t := by
  cases hs : s.st.terminal with
  | true => exact ⟨s, step_terminal hs⟩
  | false =>
    rw [step_eq_engineStep_start hs]
    cases hf : fetch s.start with
    | error r => exact ⟨_, engineStep_error hf⟩
    | ok i =>
      obtain ⟨t, ht, -⟩ := exec_effect i s.start
      exact ⟨t, (engineStep_ok hf).trans ht⟩

theorem runLoop_terminal {s : State} (h : s.st.terminal = true) (fuel : Nat) : runLoop fuel s = .next s := by
  cases fuel with
  | zero => rfl
  | succ fuel =>
    cases hst : s.st with
    | ready | running => simp [hst, EngineState.terminal] at h
    | halted | faulted r => simp [runLoop, hst]

theorem runLoop_succ {s t : State} (hs : s.st = .running) (h : step s = .next t) (fuel : Nat) :
    runLoop (fuel + 1) s = runLoop fuel t := by
  rw [step_running hs] at h
  simp [runLoop, hs, h]

theorem run_terminal {s : State} (h : s.st.terminal = true) (fuel : Nat) : run fuel s = .next s := by
  cases hst : s.st with
  | ready | running => simp [hst, EngineState.terminal] at h
  | halted | faulted r => simp [run, hst]

/-- Outside the terminal states a run is the loop of the machine started (spec/40_engine_cycle.md R60, R68). -/
theorem run_eq_runLoop_start {s : State} (h : s.st.terminal = false) (fuel : Nat) : run fuel s = runLoop fuel s.start := by
  cases hst : s.st with
  | ready => simp [run, hst]
  | running => simp [run, hst, start_eq_self hst]
  | halted | faulted r => simp [hst, EngineState.terminal] at h

theorem ticks_succ {s t : State} (h : step s = .next t) (k : Nat) : ticks (k + 1) s = ticks k t := by
  simp [ticks, h]

theorem ticks_terminal {s : State} (h : s.st.terminal = true) (k : Nat) : ticks k s = .next s := by
  induction k with
  | zero => rfl
  | succ k ih => rw [ticks_succ (step_terminal h), ih]

/-- The first of the ticks starts the machine. -/
theorem ticks_succ_start {s : State} (h : s.st.terminal = false) (k : Nat) : ticks (k + 1) s.start = ticks (k + 1) s := by
  simp only [ticks, step_start h]

/-- The loop takes the same steps as repeated ticks in every state but `Ready`, to which no step leads; by induction on
their number. -/
theorem runLoop_eq_ticks {s : State} (hs : s.st ≠ .ready) (k : Nat) : runLoop k s = ticks k s := by
  induction k generalizing s with
  | zero => rfl
  | succ k ih =>
    cases hst : s.st with
    | ready => exact absurd hst hs
    | running =>
      obtain ⟨t, ht⟩ := exists_step_next s
      rw [runLoop_succ hst ht, ticks_succ ht, ih (step_running_not_ready hst ht)]
    | halted | faulted r =>
      have terminal : s.st.terminal = true := by rw [hst]; rfl
      rw [runLoop_terminal terminal, ticks_terminal terminal]

/-- Settles O54: a terminal state is left by neither; in the others both take the steps of the machine started, the first
tick starting it. -/
theorem runIsRepeatedTick : Obligations.RunIsRepeatedTick := by
  intro k s
  cases hs : s.st.terminal with
  | true => rw [run_terminal hs, ticks_terminal hs]
  | false => rw [run_eq_runLoop_start hs, runLoop_eq_ticks (by simp), ticks_succ_start hs]

/-- Settles O36: the rows of R60 in order, the Step's by what a step of a running machine can do. -/
theorem engineStateMoves : Obligations.EngineStateMoves := by
  refine ⟨fun s => ⟨rfl, rfl⟩, fun s t image hs h => ?load, fun s hs => ?start,
    fun s t hs h => ⟨step_running_st hs h, step_running_halted_iff hs h⟩,
    fun s hs => ⟨step_terminal hs, run_terminal hs, fun image t h => ?terminalLoad⟩⟩
  case load =>
    obtain ⟨-, rfl⟩ := loadImage_eq_some.mp h
    obtain ⟨m, frame⟩ := loadFrom_frame s 0 image
    rw [frame]
    exact hs
  case start =>
    have live : s.st.terminal = false := not_terminal_of_running_or_ready (.inr hs)
    exact ⟨(step_start live).symm, run_eq_runLoop_start live⟩
  case terminalLoad =>
    obtain ⟨-, rfl⟩ := loadImage_eq_some.mp h
    exact loadFrom_not_ready (not_ready_of_terminal hs) 0 image

/-! ### A loop of one instruction -/

theorem runLoop_of_step_eq_self {s : State} (hs : s.st = .running) (h : step s = .next s) (fuel : Nat) :
    runLoop fuel s = .next s := by
  induction fuel with
  | zero => rfl
  | succ fuel ih => rw [runLoop_succ hs h, ih]

/-- A JMP whose register holds its own address is a step to the same state. -/
theorem step_jmp_self {s : State} {ra : Byte} {a : Fin 8} (hs : s.st = .running) (hf : fetch s = .ok (.jmp ra))
    (ha : Names ra a) (hpc : (s.reg a).toNat = s.pc) : step s = .next s :=
  calc step s = exec (.jmp ra) s := (step_running hs).trans (engineStep_ok hf)
    _ = .next (s.setPc (s.reg a).toNat) := exec_jmp_ok ha s
    _ = .next s := by rw [hpc]; rfl

/-- Settles O47: the two bytes at `pc` are the encoding of the JMP, whose step leads back to the state it starts in. -/
theorem selfJumpLoopsForever : Obligations.SelfJumpLoopsForever := by
  intro s ra a hs hsize hop hra ha hpc
  obtain ⟨rest, hbytes⟩ := codeBytes_eq_cons_cons hsize
  have fetched : fetch s = .ok (.jmp ra) := fetch_of_codeBytes rfl (by rw [hbytes, hop, hra]; rfl)
  exact runLoop_of_step_eq_self hs (step_jmp_self hs fetched ha hpc)

end Sys2Proof.Machine

/-!
SUPPORT. The ALU instructions (spec/41_alu.md R76 to R81): the state after a register write, the compare's three results,
the faults on operands, and the one fault no step ends in.
-/

namespace Sys2Proof.Machine

/-! ### Faults on operands -/

/-- The opcode byte is accepted, so the fetch gets as far as the operand byte past the end. -/
theorem operandPastEndFaults (i : Instr) : OperandPastEndFaults i := by
  intro s hs hin hpc hhead hlen
  obtain ⟨op, shape, hop, hd, -, hnops⟩ := shape_of_encoding i s.config hin
  obtain rfl : op = s.byteAt s.pc := Option.some.inj (hop.symm.trans hhead)
  exact (step_running hs).trans (engineStep_error (fetch_operand_outOfRange hpc hd (by omega)))

theorem exec_either_above {i : Instr} {ra rb : Byte} (hi : i.registerOperands = [ra, rb])
    (h : 7 < ra.toNat ∨ 7 < rb.toNat) (s : State) : exec i s = .next (s.takeFault .invalidRegister) := by
  rcases h with h | h
  · exact exec_above (hi ▸ List.mem_cons_self) h s
  · exact exec_above (hi ▸ List.mem_cons_of_mem _ List.mem_cons_self) h s

/-! ### Register writes -/

/-- After the write of a number to a register and a move of `pc`: the register holds the number modulo 256, `pc` is where it
was moved, and nothing else has changed. -/
theorem registerWrite_frame {s t : State} {a : Fin 8} {v : Int} {p : Nat}
    (ht : t = (s.setRf (s.rf.write a v)).setPc p) {n : Nat} (hv : v % 256 = n) :
    (t.reg a).toNat = n ∧ RegsSameBut [a] s t ∧ t.fl = s.fl ∧ t.pc = p ∧ MemorySame s t ∧ t.out = s.out ∧
      t.st = s.st ∧ t.config = s.config := by
  subst ht
  refine ⟨?_, fun k hk => read_write_ne s.rf v (by simpa using hk), rfl, rfl, fun _ => rfl, rfl, rfl, rfl⟩
  have stored : (((s.rf.write a v).read a).toNat : Int) = n := by rw [read_write_same, toNat_ofInt_byte, hv]
  exact Int.ofNat.inj stored

/-- Settles O1: the sum of two numbers, stored in a register, is the sum modulo 256. -/
theorem addWritesSumModulo256 : Obligations.AddWritesSumModulo256 := fun ra rb =>
  ⟨fun c rest => decodeOfEncode c (.add ra rb) rest rfl,
    fun s _ _ ha hb => ⟨_, exec_add_ok ha hb s, registerWrite_frame rfl (by simp)⟩,
    fun s h => exec_either_above rfl h s, operandPastEndFaults _⟩

/-- Settles O2: the whole product, stored in a register, is its low byte. -/
theorem mulWritesLowByteOfProduct : Obligations.MulWritesLowByteOfProduct := fun ra rb =>
  ⟨fun c rest => decodeOfEncode c (.mul ra rb) rest rfl,
    fun s _ _ ha hb => ⟨_, exec_mul_ok ha hb s, registerWrite_frame rfl (by simp)⟩,
    fun s h => exec_either_above rfl h s, operandPastEndFaults _⟩

/-- Settles O3: the successor, stored in a register, is 0 after 255. -/
theorem incWritesSuccessorModulo256 : Obligations.IncWritesSuccessorModulo256 := fun ra =>
  ⟨fun c rest hc => decodeOfEncode c (.inc ra) rest hc,
    fun s _ ha => ⟨_, exec_inc_ok ha s, registerWrite_frame rfl (by simp)⟩,
    fun s h => exec_above List.mem_cons_self h s, operandPastEndFaults _⟩

/-- Settles O4: the predecessor is taken as an integer, and -1 and 255 are the same modulo 256. -/
theorem decWritesPredecessorModulo256 : Obligations.DecWritesPredecessorModulo256 := fun ra =>
  ⟨fun c rest hc => decodeOfEncode c (.dec ra) rest hc,
    fun s _ ha => ⟨_, exec_dec_ok ha s, registerWrite_frame rfl (by omega)⟩,
    fun s h => exec_above List.mem_cons_self h s, operandPastEndFaults _⟩

/-! ### The compare -/

theorem compareFlags_equal {u v : Byte} (h : u.toNat = v.toNat) : compareFlags u v = 0x01 := if_pos h

theorem compareFlags_greater {u v : Byte} (h : u.toNat > v.toNat) : compareFlags u v = 0x02 :=
  (if_neg h.ne').trans (if_pos h)

theorem compareFlags_less {u v : Byte} (h : u.toNat < v.toNat) : compareFlags u v = 0x04 :=
  (if_neg h.ne).trans (if_neg h.not_gt)

/-- Settles O5: the new `FL` is the compare's result, and only `FL` and `pc` are written. -/
theorem cmpWritesOneOfThreeFlags : Obligations.CmpWritesOneOfThreeFlags := fun ra rb =>
  ⟨fun c rest => decodeOfEncode c (.cmp ra rb) rest rfl,
    fun s _ _ ha hb => ⟨_, exec_cmp_ok ha hb s, compareFlags_equal, compareFlags_greater, compareFlags_less,
      fun _ _ => rfl, rfl, fun _ => rfl, rfl, rfl, rfl⟩,
    fun s h => exec_either_above rfl h s, operandPastEndFaults _⟩

/-! ### The fault no step ends in -/

theorem alu_other_tag {tag : Mnemonic} (h : tag ∉ [Mnemonic.add, .mul, .inc, .dec, .cmp]) (a b : Byte)
    (rf : RegisterFile) : alu tag a b rf = .error .unsupportedOperation := by
  cases tag with
  | add | mul | inc | dec | cmp => simp at h
  | hlt | ret | push | pop | prn | call | jmp | jeq | jne | ldi => rfl

theorem not_raises_unsupportedOperation (i : Instr) (s : State) : ¬ Raises i s .unsupportedOperation := nofun

/-- A Step of a running machine ends in a fault of the fetch, which is another, or in one its instruction raises. -/
theorem engineStep_not_unsupportedOperation {s t : State} (hs : s.st = .running) (h : engineStep s = .next t) :
    t.st ≠ .faulted .unsupportedOperation := by
  intro ht
  rcases engineStep_next h with ⟨r, -, hr, rfl⟩ | ⟨i, hf, -⟩
  · cases ht
    simp at hr
  · rw [engineStep_ok hf] at h
    exact not_raises_unsupportedOperation i s (exec_faulted hs h ht).1

/-- Settles O46: the ALU's match on the tag; and a step of a ready or running machine is a Step of the machine started. -/
theorem unsupportedOperationUnreachable : Obligations.UnsupportedOperationUnreachable := by
  refine ⟨fun _ a b rf h => alu_other_tag h a b rf, fun s t hs h => ?_⟩
  rw [step_eq_engineStep_start (not_terminal_of_running_or_ready hs)] at h
  exact engineStep_not_unsupportedOperation rfl h

end Sys2Proof.Machine

/-!
SUPPORT. The stack (spec/42_stack.md): what a push and a pop change and leave (R85, R86), PUSH and POP on top of them (R87,
R88), the cells `STACK_LIMIT` protects (R85), and the round trip of several pushes and pops (R89).
-/

namespace Sys2Proof.Machine

/-! ### What `STACK_LIMIT` protects -/

/-- An instruction stores above `STACK_LIMIT` only, so the address of the store, `x[7] - 1`, is not below it. -/
theorem Effect.byteAt_below_stackLimit {i : Instr} {s t : State} (h : Effect i s t) (hm : s.mem.wf) {a : Nat}
    (ha : a < s.config.stackLimit) : t.byteAt a = s.byteAt a := by
  cases h with
  | store b p hl hn hi hp =>
    have hne : a ≠ s.pushAddr := by
      rw [pushAddr_eq]
      omega
    exact (setByte_byteAt (s := s.setReg spReg s.pushAddr) hm _ b a).trans (if_neg hne)
  | fault | halt | registers | output => rfl

/-- Settles O25: a step does nothing, takes a fault, or has an effect of the fetched instruction, whose one store is not
below `STACK_LIMIT`. -/
theorem stackLimitProtectsImage : Obligations.StackLimitProtectsImage := by
  intro s t hm h a ha
  rcases step_cases h with rfl | ⟨r, rfl⟩ | ⟨i, -, he⟩
  · rfl
  · rfl
  · exact he.byteAt_below_stackLimit hm ha

/-! ### A push -/

theorem push_config {s t : State} {v : Nat} (h : push v s = .ok t) : t.config = s.config := by
  obtain ⟨-, -, rfl⟩ := push_eq_ok.mp h
  rfl

theorem push_mem_wf {s t : State} {v : Nat} (hm : s.mem.wf) (h : push v s = .ok t) : t.mem.wf := by
  obtain ⟨-, -, rfl⟩ := push_eq_ok.mp h
  exact Memory.wf_setByte hm _ _

theorem push_byteAt {s t : State} {v : Nat} (hm : s.mem.wf) (h : push v s = .ok t) (c : Nat) :
    t.byteAt c = if c = s.pushAddr then BitVec.ofNat 8 v else s.byteAt c := by
  obtain ⟨-, -, rfl⟩ := push_eq_ok.mp h
  exact setByte_byteAt (s := s.setReg spReg s.pushAddr) hm _ _ c

/-- A push succeeds above `STACK_LIMIT` only, so that the decrement does not wrap and does not pass the limit. -/
theorem push_sp_succ {s t : State} {v : Nat} (h : push v s = .ok t) : t.sp + 1 = s.sp ∧ s.config.stackLimit ≤ t.sp := by
  have moved := push_sp h
  obtain ⟨hl, -, -⟩ := push_eq_ok.mp h
  rw [pushAddr_eq] at moved
  omega

/-- All that a push changes and leaves, beside the stack pointer. -/
theorem push_frame {s t : State} {v : Nat} (hm : s.mem.wf) (h : push v s = .ok t) :
    t.byteAt s.pushAddr = BitVec.ofNat 8 v ∧ MemorySameBut s.pushAddr s t ∧ RegsSameBut [spReg] s t ∧ t.fl = s.fl ∧
      t.pc = s.pc ∧ t.st = s.st ∧ t.out = s.out ∧ t.config = s.config := by
  refine ⟨(push_byteAt hm h _).trans (if_pos rfl), fun c hc => (push_byteAt hm h c).trans (if_neg hc), ?_⟩
  obtain ⟨-, -, rfl⟩ := push_eq_ok.mp h
  exact ⟨fun k hk => setReg_reg_ne s _ (List.ne_of_not_mem_cons hk), rfl, rfl, rfl, rfl, rfl⟩

/-- Settles O20: the two checks are those of `push`, and what a successful push does is `push_sp_succ` and `push_frame`. -/
theorem pushPrimitive : Obligations.PushPrimitive := by
  refine fun s v hm => ⟨fun h => push_overflow h v, fun h h' => push_outOfRange h h' v, fun h h' => ?_⟩
  have pushed := push_ok h h' v
  obtain ⟨hbyte, hrest⟩ := push_frame hm pushed
  refine ⟨_, pushed, (push_sp_succ pushed).1, ?_, hrest⟩
  rw [← pushAddr_eq, hbyte, BitVec.toNat_ofNat]

/-- PUSH is a push of the register's old value and the move of `pc` past its operand (spec/42_stack.md R87). -/
theorem exec_push_of_push {ra : Byte} {a : Fin 8} (ha : Names ra a) {s t : State}
    (h : push (s.reg a).toNat s = .ok t) : exec (.push ra) s = .next (t.setPc (s.pc + 2)) := by
  obtain ⟨hl, hn, rfl⟩ := push_eq_ok.mp h
  rw [exec_push_ok ha hl hn, BitVec.ofNat_toNat, BitVec.setWidth_eq]

/-- Settles O6: PUSH completes as the push of its register's value does, and raises what that push raises. -/
theorem pushStoresBelowStackPointer : Obligations.PushStoresBelowStackPointer := by
  refine fun ra => ⟨fun c rest => decodeOfEncode c (.push ra) rest rfl, fun s a hm ha h h' => ?_,
    fun s h => exec_above List.mem_cons_self h s, fun s _ ha h => exec_push_overflow ha h,
    fun s _ ha h h' => exec_push_outOfRange ha h h', operandPastEndFaults _⟩
  obtain ⟨t, pushed⟩ : ∃ t, push (s.reg a).toNat s = .ok t := ⟨_, push_ok h h' _⟩
  have moved := push_sp pushed
  obtain ⟨hbyte, hmem, hregs, hfl, -, hst, hout, hconfig⟩ := push_frame hm pushed
  have stored : BitVec.ofNat 8 (s.reg a).toNat = s.reg a := by simp
  exact ⟨_, exec_push_of_push ha pushed, moved ▸ (push_sp_succ pushed).1, hbyte.trans stored, hmem, moved, hregs, hfl, rfl,
    hout, hst, hconfig⟩

/-! ### A pop -/

/-- All that a pop leaves: everything but the stack pointer. -/
theorem pop_frame {s t : State} {v : Byte} (h : pop s = .ok (v, t)) :
    MemorySame s t ∧ RegsSameBut [spReg] s t ∧ t.fl = s.fl ∧ t.pc = s.pc ∧ t.st = s.st ∧ t.out = s.out ∧
      t.config = s.config := by
  obtain ⟨-, -, rfl⟩ := pop_eq_ok.mp h
  exact ⟨fun _ => rfl, fun k hk => setReg_reg_ne s _ (List.ne_of_not_mem_cons hk), rfl, rfl, rfl, rfl, rfl⟩

/-- Settles O21: the check is the one of `pop` against `SP_INIT` = `N - 1`. -/
theorem popPrimitive : Obligations.PopPrimitive := by
  refine fun s hc => ⟨fun h => pop_underflow h, fun h => ?_⟩
  have popped := pop_ok h
  exact ⟨_, popped, pop_sp hc.2 popped, pop_frame popped⟩

/-- POP is a pop, the write of the popped byte to the register after it, and the move of `pc` past its operand
(spec/42_stack.md R88). -/
theorem exec_pop_of_pop {ra : Byte} {a : Fin 8} (ha : Names ra a) {s t : State} {v : Byte} (h : pop s = .ok (v, t)) :
    exec (.pop ra) s = .next ((t.setReg a v.toNat).setPc (s.pc + 2)) := by
  obtain ⟨hs, rfl, rfl⟩ := pop_eq_ok.mp h
  exact exec_pop_ok ha hs

/-- Settles O7: POP's register write comes after the pop, so it leaves the moved stack pointer unless it is a write to
it. -/
theorem popLoadsTopOfStack : Obligations.PopLoadsTopOfStack := by
  refine fun ra => ⟨fun c rest => decodeOfEncode c (.pop ra) rest rfl, fun s a hc ha h => ?_,
    fun s h => exec_above List.mem_cons_self h s, fun s _ ha h => exec_pop_underflow ha h, operandPastEndFaults _⟩
  obtain ⟨t, popped⟩ : ∃ t, pop s = .ok (s.byteAt s.sp, t) := ⟨_, pop_ok h⟩
  have written : (t.setReg a (s.byteAt s.sp).toNat).reg a = s.byteAt s.sp := by simp
  have moved := pop_sp hc.2 popped
  obtain ⟨hmem, hregs, hfl, -, hst, hout, hconfig⟩ := pop_frame popped
  refine ⟨_, exec_pop_of_pop ha popped, written, fun hne => ?_, fun k hk => ?_, hmem, hfl, rfl, hout, hst, hconfig⟩
  · exact (congrArg BitVec.toNat (setReg_reg_ne _ _ hne.symm)).trans moved
  · obtain ⟨hka, hksp⟩ := not_or.mp (mt List.mem_cons.mpr hk)
    exact (setReg_reg_ne _ _ hka).trans (hregs k hksp)

/-! ### Several pushes, several pops -/

/-- The `k` bytes from the stack pointer up: what `k` pops read. -/
def State.stackTop (s : State) (k : Nat) : List Byte := (List.range' s.sp k).map s.byteAt

theorem stackTop_succ (s : State) (k : Nat) :
    s.stackTop (k + 1) = s.byteAt s.sp :: (List.range' (s.sp + 1) k).map s.byteAt := by
  rw [State.stackTop, List.range'_succ, List.map_cons]

theorem stackTop_succ_last (s : State) (k : Nat) : s.stackTop (k + 1) = s.stackTop k ++ [s.byteAt (s.sp + k)] := by
  rw [State.stackTop, List.range'_1_concat, List.map_append, List.map_singleton, State.stackTop]

theorem stackTop_congr {s t : State} {k : Nat} (hsp : t.sp = s.sp)
    (h : ∀ a, s.sp ≤ a → a < s.sp + k → t.byteAt a = s.byteAt a) : t.stackTop k = s.stackTop k := by
  rw [State.stackTop, hsp]
  refine List.map_congr_left fun a ha => ?_
  obtain ⟨hle, hlt⟩ := List.mem_range'_1.mp ha
  exact h a hle hlt

theorem pushAll_nil_eq_ok {s t : State} : pushAll [] s = .ok t ↔ t = s := by
  simp [pushAll, eq_comm]

theorem pushAll_cons_eq_ok {v : Byte} {vs : List Byte} {s t : State} :
    pushAll (v :: vs) s = .ok t ↔ ∃ r, push v.toNat s = .ok r ∧ pushAll vs r = .ok t := by
  cases h : push v.toNat s with
  | error e => simp [pushAll, h, bind, Except.bind]
  | ok r => simp [pushAll, h, bind, Except.bind]

theorem pushAll_sp {vs : List Byte} {s t : State} (h : pushAll vs s = .ok t) : t.sp + vs.length = s.sp := by
  induction vs generalizing s with
  | nil => rw [pushAll_nil_eq_ok.mp h]; rfl
  | cons v vs ih =>
    obtain ⟨r, hpush, hrest⟩ := pushAll_cons_eq_ok.mp h
    have := (push_sp_succ hpush).1
    have := ih hrest
    rw [List.length_cons]
    omega

theorem pushAll_stackLimit_le {vs : List Byte} {s t : State} (h : pushAll vs s = .ok t) (hne : vs ≠ []) :
    s.config.stackLimit ≤ t.sp := by
  induction vs generalizing s with
  | nil => exact absurd rfl hne
  | cons v vs ih =>
    obtain ⟨r, hpush, hrest⟩ := pushAll_cons_eq_ok.mp h
    rcases eq_or_ne vs [] with rfl | hvs
    · rw [pushAll_nil_eq_ok.mp hrest]
      exact (push_sp_succ hpush).2
    · exact push_config hpush ▸ ih hrest hvs

/-- The stack grows toward lower addresses (spec/10_state.md R14): a push leaves what lies at or above the stack pointer. -/
theorem push_byteAt_above {s t : State} {v : Nat} (hm : s.mem.wf) (h : push v s = .ok t) {a : Nat} (ha : s.sp ≤ a) :
    t.byteAt a = s.byteAt a := by
  rw [push_byteAt hm h, if_neg]
  have := (push_sp_succ h).1
  rw [← push_sp h]
  omega

theorem pushAll_byteAt_above {vs : List Byte} {s t : State} (hm : s.mem.wf) (h : pushAll vs s = .ok t) {a : Nat}
    (ha : s.sp ≤ a) : t.byteAt a = s.byteAt a := by
  induction vs generalizing s with
  | nil => rw [pushAll_nil_eq_ok.mp h]
  | cons v vs ih =>
    obtain ⟨r, hpush, hrest⟩ := pushAll_cons_eq_ok.mp h
    have := (push_sp_succ hpush).1
    calc t.byteAt a = r.byteAt a := ih (push_mem_wf hm hpush) hrest (by omega)
      _ = s.byteAt a := push_byteAt_above hm hpush ha

/-- Pushed values lie on the stack with the last on top: the first one is the cell below the old stack pointer, and the
later pushes leave it. -/
theorem pushAll_stackTop {vs : List Byte} {s t : State} (hm : s.mem.wf) (h : pushAll vs s = .ok t) :
    t.stackTop vs.length = vs.reverse := by
  induction vs generalizing s with
  | nil => rfl
  | cons v vs ih =>
    obtain ⟨r, hpush, hrest⟩ := pushAll_cons_eq_ok.mp h
    have hr := push_mem_wf hm hpush
    have first : t.byteAt r.sp = v := by
      rw [pushAll_byteAt_above hr hrest le_rfl, push_sp hpush, (push_frame hm hpush).1]
      simp
    rw [List.length_cons, stackTop_succ_last, pushAll_sp hrest, first, ih hr hrest, List.reverse_cons]

theorem popMany_succ_ok {s t u : State} {v : Byte} {vs : List Byte} {k : Nat} (h : pop s = .ok (v, t))
    (hk : popMany k t = .ok (vs, u)) : popMany (k + 1) s = .ok (v :: vs, u) := by
  simp [popMany, h, hk, bind, Except.bind, pure, Except.pure]

/-- Pops up to `SP_INIT` succeed and give the bytes from the stack pointer up. -/
theorem popMany_ok {k : Nat} {s : State} (hc : s.config.memSize ≤ 256) (h : s.sp + k ≤ s.config.spInit) :
    ∃ w, popMany k s = .ok (s.stackTop k, w) ∧ w.sp = s.sp + k := by
  induction k generalizing s with
  | zero => exact ⟨s, rfl, rfl⟩
  | succ k ih =>
    have popped := pop_ok (show s.sp < s.config.spInit by omega)
    have moved := pop_sp hc popped
    obtain ⟨w, hw, hsp⟩ := ih (s := s.setReg spReg ((s.sp : Int) + 1)) hc (by rw [moved, setReg_config]; omega)
    refine ⟨w, ?_, by omega⟩
    rw [popMany_succ_ok popped hw, stackTop_succ, State.stackTop, moved]
    rfl

/-- Settles O23: the pushed cells, which are what the pops read, hold the values in reverse order. -/
theorem stackRoundTrip : Obligations.StackRoundTrip := by
  intro s t u vs hc hm hs hpush hconfig hsp hcells
  have moved := pushAll_sp hpush
  refine ⟨moved, pushAll_stackLimit_le hpush, ?_⟩
  have cells : u.stackTop vs.length = vs.reverse :=
    (stackTop_congr hsp fun a hle hlt => hcells a hle (moved ▸ hlt)).trans (pushAll_stackTop hm hpush)
  obtain ⟨w, hw, hwsp⟩ := popMany_ok (k := vs.length) (s := u) (hconfig ▸ hc.2) (by rw [hsp, moved, hconfig]; exact hs)
  exact ⟨w, cells ▸ hw, by rw [hwsp, hsp, moved]⟩

end Sys2Proof.Machine

/-!
SUPPORT. Control transfer (spec/43_control_flow.md): `call` and `ret` on top of a push and a pop (R90, R91), CALL and RET on
top of those (R92, R93), the jumps (R94 to R96), and the law of call and return (R98).
-/

namespace Sys2Proof.Machine

/-! ### `call` and `ret` -/

theorem call_of_push {s t : State} {r : Nat} (h : push r s = .ok t) (target : Byte) :
    call r target s = .ok (t, some target) := by
  simp [call, h, bind, Except.bind, pure, Except.pure]

theorem call_of_push_error {s : State} {r : Nat} {reason : FaultReason} (h : push r s = .error reason) (target : Byte) :
    call r target s = .error reason := by
  simp [call, h, bind, Except.bind]

theorem ret_of_pop {s t : State} {v : Byte} (h : pop s = .ok (v, t)) : ret s = .ok (t, some v) := by
  simp [ret, h, bind, Except.bind, pure, Except.pure]

theorem ret_of_pop_error {s : State} {reason : FaultReason} (h : pop s = .error reason) : ret s = .error reason := by
  simp [ret, h, bind, Except.bind]

/-- Settles O22: the two primitives pass on what the push and the pop answer. -/
theorem callAndRetPrimitives : Obligations.CallAndRetPrimitives :=
  ⟨fun _ _ _ target h => call_of_push h target, fun _ _ target _ h => call_of_push_error h target,
    fun _ _ _ => ret_of_pop, fun _ _ => ret_of_pop_error⟩

/-! ### CALL and RET -/

/-- CALL is a push of the return address and the load of `pc` with the register's old value. -/
theorem exec_call_of_push {ra : Byte} {a : Fin 8} (ha : Names ra a) {s t : State} (h : push (s.pc + 2) s = .ok t) :
    exec (.call ra) s = .next (t.setPc (s.reg a).toNat) := by
  obtain ⟨hl, hn, rfl⟩ := push_eq_ok.mp h
  exact exec_call_ok ha hl hn

/-- Settles O8: CALL completes as the push of its return address does, and raises what that push raises. -/
theorem callPushesReturnAddress : Obligations.CallPushesReturnAddress := by
  refine fun ra => ⟨fun c rest => decodeOfEncode c (.call ra) rest rfl, fun s a hm ha h h' => ?_,
    fun s h => exec_above List.mem_cons_self h s, fun s _ ha h => exec_call_overflow ha h,
    fun s _ ha h h' => exec_call_outOfRange ha h h', operandPastEndFaults _⟩
  obtain ⟨t, pushed⟩ : ∃ t, push (s.pc + 2) s = .ok t := ⟨_, push_ok h h' _⟩
  have moved := push_sp pushed
  obtain ⟨hbyte, hmem, hregs, hfl, -, hst, hout, hconfig⟩ := push_frame hm pushed
  have stored : (t.byteAt s.pushAddr).toNat = (s.pc + 2) % 256 := by rw [hbyte, BitVec.toNat_ofNat]
  exact ⟨_, exec_call_of_push ha pushed, moved ▸ (push_sp_succ pushed).1, stored, hmem, moved, rfl, hregs, hfl, hout, hst,
    hconfig⟩

/-- RET is a pop and the load of `pc` with the popped byte. -/
theorem exec_ret_of_pop {s t : State} {v : Byte} (h : pop s = .ok (v, t)) : exec .ret s = .next (t.setPc v.toNat) := by
  obtain ⟨hs, rfl, rfl⟩ := pop_eq_ok.mp h
  exact exec_ret_ok hs

/-- Settles O9: RET completes as a pop does, which leaves all but the stack pointer, and raises what that pop raises. -/
theorem retPopsProgramCounter : Obligations.RetPopsProgramCounter := by
  refine ⟨fun c rest => decodeOfEncode c .ret rest rfl, fun s hc h => ?_, fun s h => exec_ret_underflow h⟩
  obtain ⟨t, popped⟩ : ∃ t, pop s = .ok (s.byteAt s.sp, t) := ⟨_, pop_ok h⟩
  have moved := pop_sp hc.2 popped
  obtain ⟨hmem, hregs, hfl, -, hst, hout, hconfig⟩ := pop_frame popped
  exact ⟨_, exec_ret_of_pop popped, rfl, moved, hregs, hmem, hfl, hout, hst, hconfig⟩

/-! ### Jumps -/

/-- A move of `pc` changes nothing else. -/
theorem setPc_frame (s : State) (p : Nat) :
    RegsSameBut [] s (s.setPc p) ∧ MemorySame s (s.setPc p) ∧ (s.setPc p).fl = s.fl ∧ (s.setPc p).out = s.out ∧
      (s.setPc p).st = s.st ∧ (s.setPc p).config = s.config :=
  ⟨fun _ _ => rfl, fun _ => rfl, rfl, rfl, rfl, rfl⟩

/-- Settles O10: JMP is a move of `pc` to the register's value. -/
theorem jmpLoadsRegisterIntoPc : Obligations.JmpLoadsRegisterIntoPc := fun ra =>
  ⟨fun c rest => decodeOfEncode c (.jmp ra) rest rfl, fun s _ ha => ⟨_, exec_jmp_ok ha s, rfl, setPc_frame s _⟩,
    fun s h => exec_above List.mem_cons_self h s, operandPastEndFaults _⟩

/-- Settles O11: JEQ is a move of `pc`, to the register's value when `FL.E` = `FL[0]` is 1, else past the operand. -/
theorem jeqJumpsWhenEqual : Obligations.JeqJumpsWhenEqual := fun ra =>
  ⟨fun c rest => decodeOfEncode c (.jeq ra) rest rfl,
    fun s _ ha => ⟨_, exec_jeq_ok ha s, fun taken => if_pos taken, fun passed => if_neg (ne_true_of_eq_false passed),
      setPc_frame s _⟩,
    fun s h => exec_above List.mem_cons_self h s, operandPastEndFaults _⟩

/-- Settles O12: JNE is a move of `pc`, to the register's value when `FL.E` = `FL[0]` is 0, else past the operand. -/
theorem jneJumpsWhenNotEqual : Obligations.JneJumpsWhenNotEqual := fun ra =>
  ⟨fun c rest => decodeOfEncode c (.jne ra) rest rfl,
    fun s _ ha => ⟨_, exec_jne_ok ha s, fun taken => if_neg (ne_true_of_eq_false taken), fun passed => if_pos passed,
      setPc_frame s _⟩,
    fun s h => exec_above List.mem_cons_self h s, operandPastEndFaults _⟩

/-! ### Call and return -/

/-- A CALL after which the machine is running took no fault, so its push succeeded. -/
theorem exists_push_of_exec_call {ra : Byte} {s t : State} (h : exec (.call ra) s = .next t) (ht : t.st = .running) :
    ∃ r p, push (s.pc + 2) s = .ok r ∧ t = r.setPc p := by
  rcases exec_iff.mp h with ⟨reason, -, rfl⟩ | completed
  · cases ht
  · cases completed with
    | call ha hl hn => exact ⟨_, _, push_ok hl hn _, rfl⟩

/-- Settles O24: the byte RET pops is the return address CALL pushed, `pc + 2` reduced modulo 256, which below 256 it
equals; and the pop undoes the push's decrement. -/
theorem callThenReturn : Obligations.CallThenReturn := by
  intro s t u ra hc hm _ hpc hs hcall ht hconfig hsp hcell
  obtain ⟨r, p, pushed, rfl⟩ := exists_push_of_exec_call hcall ht
  rw [setPc_sp] at hsp hcell
  rw [setPc_config, push_config pushed] at hconfig
  have moved : u.sp + 1 = s.sp := hsp ▸ (push_sp_succ pushed).1
  have top : u.byteAt u.sp = BitVec.ofNat 8 (s.pc + 2) :=
    calc u.byteAt u.sp = r.byteAt r.sp := hsp ▸ hcell
      _ = BitVec.ofNat 8 (s.pc + 2) := push_sp pushed ▸ (push_frame hm pushed).1
  have popped := pop_ok (s := u) (by rw [hconfig]; omega)
  refine ⟨_, exec_ret_of_pop popped, ?_, (pop_sp (hconfig ▸ hc.2) popped).trans moved, rfl⟩
  rw [setPc_pc, top, BitVec.toNat_ofNat]
  omega

end Sys2Proof.Machine

/-!
SUPPORT. Data movement, output and the halt (spec/44_data_io_system.md R100 to R102): what LDI, PRN and HLT change and
leave, and what the sink shows of one more value (spec/10_state.md R21).
-/

namespace Sys2Proof.Machine

/-! ### LDI -/

/-- Settles O13: the immediate is below 256, so the number LDI writes to the register is stored as the same byte. -/
theorem ldiWritesImmediate : Obligations.LdiWritesImmediate := by
  refine fun ra imm => ⟨fun c rest => decodeOfEncode c (.ldi ra imm) rest rfl, fun s a ha => ?_,
    fun s h => exec_above List.mem_cons_self h s, operandPastEndFaults _⟩
  have unreduced : (imm.toNat : Int) % 256 = imm.toNat := by have := imm.isLt; omega
  obtain ⟨hvalue, frame⟩ := registerWrite_frame (s := s) (a := a) (p := s.pc + 3) rfl unreduced
  exact ⟨_, exec_ldi_ok ha imm s, BitVec.eq_of_toNat_eq hvalue, frame⟩

/-! ### PRN -/

/-- The sink shows an emitted value as one more line. -/
theorem sinkText_emit (s : State) (v : Byte) : sinkText (s.emit v).out = sinkText s.out ++ sinkLine v :=
  List.foldl_concat _ _ _ _

/-- Settles O14: PRN is the output of the register's value and a move of `pc`, neither of which changes anything else. -/
theorem prnEmitsRegister : Obligations.PrnEmitsRegister := by
  refine fun ra => ⟨fun c rest => decodeOfEncode c (.prn ra) rest rfl, fun s a ha => ?_,
    fun s h => exec_above List.mem_cons_self h s, operandPastEndFaults _⟩
  have shown : sinkText (s.emit (s.reg a)).out = sinkText s.out ++ toString (s.reg a).toNat ++ "\n" := by
    rw [sinkText_emit, sinkLine, String.append_assoc]
  exact ⟨_, exec_prn_ok ha s, rfl, shown, fun _ _ => rfl, rfl, rfl, fun _ => rfl, rfl, rfl⟩

/-! ### HLT -/

/-- Settles O15: HLT is the move of the engine state to `Halted`, in every state. -/
theorem hltHaltsAndHoldsPc : Obligations.HltHaltsAndHoldsPc :=
  ⟨fun c rest => decodeOfEncode c .hlt rest rfl,
    fun s => ⟨_, exec_hlt_eq s, rfl, rfl, fun _ _ => rfl, rfl, fun _ => rfl, rfl, rfl⟩⟩

end Sys2Proof.Machine

/-!
SUPPORT. The order in which a step meets its faults (spec/60_exceptions.md R113), for an instruction given by its mnemonic:
what the Stack Manager's checks decide for PUSH and CALL and for POP and RET once the register operands have passed theirs,
and that no other instruction has a further check.
-/

namespace Sys2Proof.Machine

/-- With its register operand in `0..7`, PUSH or CALL meets the two checks of `push` (spec/42_stack.md R85) and no other. -/
theorem push_or_call_outcomes {i : Instr} {s : State} (hm : i.mnemonic = .push ∨ i.mnemonic = .call)
    (named : ∀ r ∈ i.registerOperands, ∃ a, Names r a) :
    (s.sp ≤ s.config.stackLimit → Raises i s .stackOverflow) ∧
    (s.config.stackLimit < s.sp → s.config.memSize ≤ s.pushAddr → Raises i s .outOfRange) ∧
    (s.config.stackLimit < s.sp → s.pushAddr < s.config.memSize → ∃ t, Completes i s t ∧ t.st = s.st) := by
  cases i with
  | push ra =>
    obtain ⟨a, ha⟩ := named ra List.mem_cons_self
    exact ⟨.pushOverflow ha, .pushOutOfRange ha, fun h h' => ⟨_, .push ha h h', rfl⟩⟩
  | call ra =>
    obtain ⟨a, ha⟩ := named ra List.mem_cons_self
    exact ⟨.callOverflow ha, .callOutOfRange ha, fun h h' => ⟨_, .call ha h h', rfl⟩⟩
  | _ => simp [Instr.mnemonic] at hm

/-- With its register operand in `0..7`, POP meets the check of `pop` (spec/42_stack.md R86) and no other, and so does RET,
which has no operand. -/
theorem pop_or_ret_outcomes {i : Instr} {s : State} (hm : i.mnemonic = .pop ∨ i.mnemonic = .ret)
    (named : ∀ r ∈ i.registerOperands, ∃ a, Names r a) :
    (s.config.spInit ≤ s.sp → Raises i s .stackUnderflow) ∧
    (s.sp < s.config.spInit → ∃ t, Completes i s t ∧ t.st = s.st) := by
  cases i with
  | pop ra =>
    obtain ⟨a, ha⟩ := named ra List.mem_cons_self
    exact ⟨.popUnderflow ha, fun h => ⟨_, .pop ha h, rfl⟩⟩
  | ret => exact ⟨.retUnderflow, fun h => ⟨_, .ret h, rfl⟩⟩
  | _ => simp [Instr.mnemonic] at hm

/-- An instruction that does not use the stack raises nothing once its register operands are in `0..7`. -/
theorem exists_completes_of_not_stack {i : Instr} (s : State) (hm : i.mnemonic ∉ [Mnemonic.push, .call, .pop, .ret])
    (named : ∀ r ∈ i.registerOperands, ∃ a, Names r a) : ∃ t, Completes i s t := by
  refine (raises_or_completes i s).resolve_left fun ⟨reason, raised⟩ => ?_
  cases raised with
  | registerAbove hr h =>
    obtain ⟨a, ha⟩ := named _ hr
    exact ha.not_above h
  | pushOverflow | pushOutOfRange | callOverflow | callOutOfRange | popUnderflow | retUnderflow =>
    simp [Instr.mnemonic] at hm

/-- Settles O38: the first three rows are the faults of the fetch; past the fetch the step is the execution of the decoded
instruction, whose faults and completion are those of the lemmas above. -/
theorem faultPriority : Obligations.FaultPriority := by
  intro s hs
  refine ⟨fun hpc => ?_, fun hpc hillegal => ?_, fun shape hpc hd hend => ?_, fun i rest hd => ?_⟩
  · exact (step_running hs).trans (engineStep_error (fetch_pc_outOfRange hpc))
  · cases hd : decodeShape s.config (s.byteAt s.pc) with
    | error e => exact step_illegal hs hpc hd
    | ok shape => exact absurd hd (hillegal shape)
  · exact (step_running hs).trans (engineStep_error (fetch_operand_outOfRange hpc hd hend))
  have executes : step s = exec i s := (stepRunsDecodedInstruction s i rest hd).1 hs
  have faults {reason : FaultReason} (raised : Raises i s reason) : step s = .next (s.takeFault reason) :=
    executes.trans raised.exec_eq
  have runsOn : (∃ t, Completes i s t ∧ t.st = s.st) → ∃ t, step s = .next t ∧ t.st = .running :=
    fun ⟨t, completed, hst⟩ => ⟨t, executes.trans completed.exec_eq, hst.trans hs⟩
  refine ⟨fun ⟨r, hr, h⟩ => faults (.registerAbove hr h), fun inRange => ?_⟩
  have named : ∀ r ∈ i.registerOperands, ∃ a, Names r a :=
    fun r hr => (names_or_above r).resolve_right (Nat.not_lt.mpr (inRange r hr))
  refine ⟨fun hm => ?_, fun hm => ?_, fun hm => ?_⟩
  · obtain ⟨overflow, outOfRange, completes⟩ := push_or_call_outcomes (s := s) hm named
    exact ⟨fun h => faults (overflow h), fun h h' => faults (outOfRange h h'), fun h h' => runsOn (completes h h')⟩
  · obtain ⟨underflow, completes⟩ := pop_or_ret_outcomes (s := s) hm named
    exact ⟨fun h => faults (underflow h), fun h => runsOn (completes h)⟩
  · obtain ⟨t, completed⟩ := exists_completes_of_not_stack s hm named
    exact ⟨t, executes.trans completed.exec_eq, completed.st.imp (·.trans hs) And.right⟩

end Sys2Proof.Machine

/-!
SUPPORT. A table word placed at `pc` (spec/20_memory.md R44; notes/assumptions/2.md): the placing writes memory and leaves
an engine that fetches, and the next fetch finds the placed bytes. At the end, that every step and every instruction
answers (spec/93_implementation_defined.md U22).
-/

namespace Sys2Proof.Machine

/-! ### Placed bytes -/

/-- Placing bytes writes memory and nothing else. -/
theorem placeBytes_frame (s : State) (a : Nat) (bytes : List Byte) : ∃ m, s.placeBytes a bytes = { s with mem := m } := by
  induction bytes generalizing s a with
  | nil => exact ⟨s.mem, rfl⟩
  | cons b bytes ih =>
    by_cases h : a < s.config.memSize
    · rw [State.placeBytes, if_pos h]
      exact ih (s.setByte a b) (a + 1)
    · rw [State.placeBytes, if_neg h]
      exact ⟨s.mem, rfl⟩

theorem placeBytes_three {s : State} {a : Nat} (h : a + 3 ≤ s.config.memSize) (b0 b1 b2 : Byte) :
    s.placeBytes a [b0, b1, b2] = ((s.setByte a b0).setByte (a + 1) b1).setByte (a + 2) b2 := by
  simp [State.placeBytes, show a < s.config.memSize by omega, show a + 1 < s.config.memSize by omega,
    show a + 1 + 1 < s.config.memSize by omega]

/-- Three bytes placed at `pc` are those the next Step can fetch. -/
theorem codeBytes_placeBytes_three {s : State} (hm : s.mem.wf) (h : s.pc + 3 ≤ s.config.memSize) (b0 b1 b2 : Byte) :
    (s.placeBytes s.pc [b0, b1, b2]).codeBytes = [b0, b1, b2] := by
  have hm0 : (s.setByte s.pc b0).mem.wf := Memory.wf_setByte hm _ _
  have hm1 : ((s.setByte s.pc b0).setByte (s.pc + 1) b1).mem.wf := Memory.wf_setByte hm0 _ _
  rw [placeBytes_three h, codeBytes_three (by simp only [setByte_pc, setByte_config]; omega)]
  simp [setByte_byteAt hm, setByte_byteAt hm0, setByte_byteAt hm1]

/-! ### A table word -/

theorem decode_of_decodeTableWord {nbits w : Nat} {i : Instr} (h : decodeTableWord nbits w = some i) :
    ∃ rest, decode Config.ls8 (tableWordBytes nbits w) = .ok (i, rest) := by
  unfold decodeTableWord at h
  split at h
  next j rest hd =>
    cases h
    exact ⟨rest, hd⟩
  next => cases h

/-- Beside the placed bytes `withFetchWord` sets nothing but the engine state. -/
theorem withFetchWord_eq (s : State) (nbits w : Nat) : s.withFetchWord nbits w =
    { s.placeBytes s.pc (tableWordBytes nbits w) with st := (s.withFetchWord nbits w).st } := by
  cases h : s.st with
  | ready | running | halted | faulted r => simp [State.withFetchWord, State.placeWord, h, State.start]

/-- The engine of a state with a placed word fetches on the next step. -/
theorem withFetchWord_not_terminal (s : State) (nbits w : Nat) : (s.withFetchWord nbits w).st.terminal = false := by
  obtain ⟨m, placed⟩ := placeBytes_frame s s.pc (tableWordBytes nbits w)
  cases h : s.st with
  | ready | running | halted | faulted r =>
    simp [State.withFetchWord, State.placeWord, placed, h, EngineState.terminal]

/-- A word of a default core with room for it at `pc` is fetched as the instruction it decodes to. -/
theorem fetch_placed_word {s : State} {nbits w : Nat} {i : Instr} (hc : s.config = Config.ls8) (hm : s.mem.wf)
    (hpc : s.pc + 3 ≤ 256) (hd : decodeTableWord nbits w = some i) :
    fetch (s.placeBytes s.pc (tableWordBytes nbits w)) = .ok i := by
  obtain ⟨rest, decoded⟩ := decode_of_decodeTableWord hd
  have bytes : (s.placeBytes s.pc (tableWordBytes nbits w)).codeBytes = tableWordBytes nbits w :=
    codeBytes_placeBytes_three hm (hc ▸ hpc) _ _ _
  have config : (s.placeBytes s.pc (tableWordBytes nbits w)).config = Config.ls8 := by
    obtain ⟨m, placed⟩ := placeBytes_frame s s.pc (tableWordBytes nbits w)
    rw [placed, hc]
  exact fetch_eq_ok_iff_decode.mpr ⟨rest, by rw [config, bytes, decoded]⟩

/-- Settles O35: the placing changes memory and the engine state, and the machine it leaves, once started, fetches the
placed word and executes it. -/
theorem placedWordIsRunNext : Obligations.PlacedWordIsRunNext := by
  intro s nbits w i hc hm hpc hd
  have fetched : fetch (s.placeBytes s.pc (tableWordBytes nbits w)) = .ok i := fetch_placed_word hc hm hpc hd
  have frame := withFetchWord_eq s nbits w
  have started : (s.withFetchWord nbits w).start = (s.placeBytes s.pc (tableWordBytes nbits w)).start :=
    (congrArg State.start frame).trans rfl
  obtain ⟨m, placed⟩ := placeBytes_frame s s.pc (tableWordBytes nbits w)
  rw [placed] at fetched frame started
  refine ⟨m, frame, ?_⟩
  rw [step_eq_engineStep_start (withFetchWord_not_terminal s nbits w), started]
  exact engineStep_ok ((fetch_start _).trans fetched)

/-! ### Every step, every instruction -/

/-- Settles O40: a step answers in every state, and every instruction ends in one of its effects. -/
theorem stepAlwaysAnswers : Obligations.StepAlwaysAnswers := by
  refine fun s => ⟨exists_step_next s, fun i => ?_⟩
  obtain ⟨t, executed, -⟩ := exec_effect i s
  exact ⟨t, executed⟩

end Sys2Proof.Machine
